-- ==== Sys2Proof/Word.lean ====
section
/-! DEFINITION. The word types of the CRC-16 frame engine (00_scope.md R10): a byte, a 16-bit value, a 32-bit command word.
They are BitVec because the engine shifts, exclusive-ors and slices them. Every index and every length is a plain Nat,
since "all index and length arithmetic is in unbounded natural numbers" (R10). -/

namespace Sys2Proof

/-- A byte, 0..255 (R10). -/
abbrev Byte := BitVec 8

/-- A `u16`, 0..65535 (R10). -/
abbrev Half := BitVec 16

/-- A command word CW (30_encoding.md R40). -/
abbrev CommandWord := BitVec 32

end Sys2Proof
end

