-- ==== Sys2Proof/Config.lean ====
section
/-! DEFINITION. The engine's configuration (00_scope.md R7, R8; 10_state.md R25): every constant of the spec under its own
name, with the spec's value as its default, and the one open parameter, RX_CAP (R9, log 1), so that no rule's definition holds a
bare number. No behaviour of this engine is an undefined value, so no
free value is needed. -/

namespace Sys2Proof

/-- The configuration record (R25): the named constants of R7, and RX_CAP of R9 with its bounds. -/
structure Config where
  /-- CRC_POLY: the reflected polynomial. -/
  crcPoly : Half := 0x8408
  /-- CRC_INIT: the initial CRC register (90_conflicts.md C1). -/
  crcInit : Half := 0xFFFF
  /-- CRC_XOROUT: the final exclusive-or ("no final XOR"). -/
  crcXorOut : Half := 0x0000
  /-- LEN_MIN: the smallest length byte the decoder accepts. -/
  lenMin : Nat := 4
  /-- LEN_MAX: the largest length byte the decoder accepts. -/
  lenMax : Nat := 250
  /-- MIN_AVAIL: the fewest remaining bytes for which the decoder reads a candidate; a field of its own (R8). -/
  minAvail : Nat := 5
  /-- BCAST_ADDR: the address byte of every command built. -/
  bcastAddr : Byte := 0xFF
  /-- CMD_INVENTORY: the Inventory opcode, also the inventory response's. -/
  cmdInventory : Byte := 0x01
  /-- CMD_STOP: the Stop inventory opcode. -/
  cmdStop : Byte := 0x93
  /-- CMD_SET_POWER: the Set output power opcode. -/
  cmdSetPower : Byte := 0x2F
  /-- TAG_STATUS_SET: the status values for which tag records are decoded. -/
  tagStatusSet : List Byte := [0x01, 0x02]
  /-- TAG_MIN_LEN: the smallest length byte for which tag records are decoded. -/
  tagMinLen : Nat := 10
  /-- EPC_MAX: the largest EPC byte length before fallback. -/
  epcMax : Nat := 62
  /-- EPC_DEFAULT: the fallback EPC byte length. -/
  epcDefault : Nat := 12
  /-- HDR_LEN: the response header's bytes. -/
  hdrLen : Nat := 4
  /-- The least RX_CAP (R9). -/
  rxCapMin : Nat := 251
  /-- The greatest RX_CAP (R9). -/
  rxCapMax : Nat := 65535
  /-- RX_CAP: the capacity of the receive buffer (R9, R25). The value is the one of the spec's own vectors and programs
  (95_test_vectors.md). DESIGN CHOICE, log 1: R9 leaves the value open and makes it an argument of the model, which
  `State.rxCap` is; no statement rests on more of the value than its bounds. -/
  rxCap : Nat := 256
  deriving DecidableEq, Repr

/-- The configuration this model is built with: the spec's values (R7, log 10). -/
def config : Config := {}

end Sys2Proof
end

