-- ==== Sys2Proof/Syntax.lean ====
section
/-! DEFINITION. The syntax: one constructor of `Instr` per row of spec/opcode_table.json (30_encoding.md R41 for the eleven
host operations, R49 to R55 for the four wire-frame rows), the two kinds of encoding of 30_encoding.md (`Code`), the names
of the fault causes and of the decoder's rejections, and the assembler's lines (R59). -/

namespace Sys2Proof

/-- One constructor per row of the opcode table, in the table's order. -/
inductive Instr where
  /-- CRC16 (R62): the operand bytes. -/
  | crc16 (data : List Byte)
  /-- APPEND_CRC (R63): the operand bytes. -/
  | appendCrc (data : List Byte)
  /-- VERIFY_CRC (R65): the frame. -/
  | verifyCrc (frame : List Byte)
  /-- BUILD_INVENTORY (R71): Q, session, target, antenna mask, scan time. -/
  | buildInventory (q session target antenna scantime : Byte)
  /-- BUILD_STOP (R72). -/
  | buildStop
  /-- BUILD_SET_POWER (R73): the power in dBm, 8-bit two's complement. -/
  | buildSetPower (power : Byte)
  /-- RX_PUSH (R77): the received bytes, oldest first. -/
  | rxPush (data : List Byte)
  /-- DECODE (R84). -/
  | decode
  /-- TAG_DECODE (R98): the frame. -/
  | tagDecode (frame : List Byte)
  /-- PROCESS (R85). -/
  | process
  /-- RESET (R123): CW[27:16] and the operand bytes, all of them ignored (R42, log 11). -/
  | reset (rsv : BitVec 12) (discarded : List Byte)
  /-- WIRE_INVENTORY (R50): the Inventory command frame, which the engine emits (log 2). -/
  | wireInventory (q session target antenna scantime : Byte)
  /-- WIRE_STOP_INVENTORY (R51): the Stop command frame, which the engine emits (log 2). -/
  | wireStopInventory
  /-- WIRE_SET_POWER (R52): the Set-power command frame, which the engine emits (log 2). -/
  | wireSetPower (power : Byte)
  /-- WIRE_INVENTORY_RESPONSE (R53 to R55): the address, the status and bytes 4 .. L-2 (the count byte `num` and the
  records) of a received frame whose opcode is 0x01, which the engine decodes (log 2). -/
  | wireInventoryResponse (address status : Byte) (body : List Byte)
  deriving DecidableEq, Repr

/-- One host transaction (R40, R43): the command word and the operand bytes delivered so far. -/
structure Transaction where
  /-- The command word CW. -/
  cw : CommandWord
  /-- The operand bytes delivered so far; the operation begins when there are CW[15:0] of them (R129). -/
  data : List Byte
  deriving DecidableEq, Repr

/-- The two kinds of encoding of 30_encoding.md: a host operation on the host port, and a frame on the wire. A wire frame
goes in one of two directions, and the opcode 0x01 stands for two different rows in the two (R49, R54). -/
inductive Code where
  /-- A command word followed by operand bytes (R40). -/
  | op (t : Transaction)
  /-- A command frame, which the engine emits (R49). -/
  | command (frame : List Byte)
  /-- A response frame, which the engine decodes (R53). -/
  | response (frame : List Byte)
  deriving DecidableEq, Repr

/-- The causes a fault may have (60_exceptions.md R110). -/
inductive Cause where
  /-- Code 1: a reserved OP. -/
  | illegalOp
  /-- Code 2: non-zero CW[27:16] on an operation other than RESET. -/
  | reservedBits
  /-- Code 3: a wrong N for a fixed-N operation. -/
  | operandCount
  /-- Code 4: RX_PUSH past RX_CAP. -/
  | rxOverflow
  deriving DecidableEq, Repr

/-- Why the decoder gives no instruction. -/
inductive Reject where
  /-- The command word has one of the faults of R111 that do not depend on the state. -/
  | fault (c : Cause)
  /-- Fewer than CW[15:0] operand bytes have been delivered: the operation has not begun (R129). -/
  | undelivered
  /-- More than CW[15:0] operand bytes: the host has no such move (R129). -/
  | surplus
  /-- The bytes are no frame of a table row: their length is not the length byte plus one, or the length byte, the address
  or the opcode is no row's (R46, R49, R54). -/
  | noSuchFrame
  /-- The frame's trailer is not its CRC (R48). -/
  | badTrailer
  deriving DecidableEq, Repr

/-- The mnemonics of the host operations (R41), as the assembler names them (R59). -/
inductive Mnemonic where
  | crc16 | appendCrc | verifyCrc | buildInventory | buildStop | buildSetPower
  | rxPush | decode | tagDecode | process | reset
  deriving DecidableEq, Repr

/-- A line of a host program (R59). -/
inductive AsmLine where
  /-- `MNEMONIC b0 ... bN-1`. -/
  | op (m : Mnemonic) (bytes : List Byte)
  /-- `BUILD_SET_POWER d`, d a signed decimal. -/
  | setPower (dBm : Int)
  /-- The pseudo-instruction `FEED b0 ... bN-1`. -/
  | feed (bytes : List Byte)
  /-- A blank line, or a comment alone. -/
  | blank
  deriving DecidableEq, Repr

end Sys2Proof
end

