-- ==== Sys2Proof/WellFormed.lean ====
section
/-! DEFINITION. Which instructions have an encoding: N is a 16-bit count (30_encoding.md R40, R43), and a response frame's
length byte stays within LEN_MAX (R47). Every other field is exactly as wide as its place in the encoding. -/

namespace Sys2Proof

/-- The greatest operand count CW[15:0] can say (R43). -/
def maxOperands : Nat := 65535

/-- The instruction has an encoding. -/
def Instr.wellFormed : Instr → Bool
  | .crc16 data => decide (data.length ≤ maxOperands)
  | .appendCrc data => decide (data.length ≤ maxOperands)
  | .verifyCrc frame => decide (frame.length ≤ maxOperands)
  | .buildInventory _ _ _ _ _ => true
  | .buildStop => true
  | .buildSetPower _ => true
  | .rxPush data => decide (data.length ≤ maxOperands)
  | .decode => true
  | .tagDecode frame => decide (frame.length ≤ maxOperands)
  | .process => true
  | .reset _ discarded => decide (discarded.length ≤ maxOperands)
  | .wireInventory _ _ _ _ _ => true
  | .wireStopInventory => true
  | .wireSetPower _ => true
  -- the frame has L = body.length + 5, and the decoder accepts L only up to LEN_MAX (R47)
  | .wireInventoryResponse _ _ body => decide (body.length + 5 ≤ config.lenMax)

end Sys2Proof
end

