-- ==== Sys2Proof/Machine/Operands.lean ====
section
/-! DEFINITION. The operand forms: byte sequences and their slices (00_scope.md R11), the two byte orders of a wire frame
(20_memory.md R29, R30), the sign extension of a byte (R10), and the fields of a command word (30_encoding.md R40). -/

namespace Sys2Proof.Machine

/-- `s[a:b]`: the bytes at indices a .. b-1 (R11). -/
def slice (s : List Byte) (a b : Nat) : List Byte := (s.drop a).take (b - a)

/-- `s[i]` (R11). Every rule reads an index below `|s|`; the default is never read. -/
def byteAt (s : List Byte) (i : Nat) : Byte := s.getD i 0

/-- `v[7:0]`. -/
def loByte (v : Half) : Byte := v.extractLsb' 0 8

/-- `v[15:8]`. -/
def hiByte (v : Half) : Byte := v.extractLsb' 8 8

/-- The 16-bit value of two bytes, low byte first (the CRC trailer, R29). -/
def littleEndian (lo hi : Byte) : Half := lo.setWidth 16 ||| (hi.setWidth 16 <<< 8)

/-- The 16-bit value of two bytes, high byte first (the PC word, R30). -/
def bigEndian (hi lo : Byte) : Half := (hi.setWidth 16 <<< 8) ||| lo.setWidth 16

/-- `sext_8` (R10): b - 256 if b > 127, else b. -/
def sext8 (b : Byte) : Int := if 127 < b.toNat then (b.toNat : Int) - 256 else (b.toNat : Int)

/-- OP, CW[31:28] (R40). -/
def cwOp (cw : CommandWord) : BitVec 4 := cw.extractLsb' 28 4

/-- RSV, CW[27:16] (R40). -/
def cwRsv (cw : CommandWord) : BitVec 12 := cw.extractLsb' 16 12

/-- N, CW[15:0] (R40). -/
def cwCount (cw : CommandWord) : Nat := (cw.extractLsb' 0 16).toNat

/-- The command word of its three fields (R40). -/
def makeCw (op : BitVec 4) (rsv : BitVec 12) (n : Nat) : CommandWord := op ++ rsv ++ BitVec.ofNat 16 n

end Sys2Proof.Machine
end

