-- ==== Sys2Proof/Machine/Crc.lean ====
section
/-! DEFINITION. The CRC function (41_crc.md R60, R61), the trailer it gives a byte sequence (R63) and the frame check (R64).
All pure: the CRC register does not outlive an operation (10_state.md R23). -/

namespace Sys2Proof.Machine

/-- One turn of the loop of `crc_step` (R60): shift right, and fold CRC_POLY in when the bit shifted out is 1. -/
def crcBit (crc : Half) : Half :=
  if crc.getLsbD 0 then (crc >>> 1) ^^^ config.crcPoly else crc >>> 1

/-- `n` turns of that loop. -/
def crcBits : Nat → Half → Half
  | 0, crc => crc
  | n + 1, crc => crcBits n (crcBit crc)

/-- `crc_step` (R60): the byte enters the low eight bits, then eight turns. -/
def crcStep (crc : Half) (b : Byte) : Half := crcBits 8 (crc ^^^ b.setWidth 16)

/-- The CRC register after the bytes of `s`, from the register `crc` (the loop of R61). -/
def crcRun (crc : Half) : List Byte → Half
  | [] => crc
  | b :: s => crcRun (crcStep crc b) s

/-- `crc16` (R61). -/
def crc16 (s : List Byte) : Half := crcRun config.crcInit s ^^^ config.crcXorOut

/-- `[c[7:0], c[15:8]]` for `c = crc16 s`: the trailer, low byte first (R29, R63). -/
def trailer (s : List Byte) : List Byte := [loByte (crc16 s), hiByte (crc16 s)]

/-- `s` followed by its trailer (R63). -/
def withCrc (s : List Byte) : List Byte := s ++ trailer s

/-- `crcValid` (R64): false where there is no length byte, where L = 0, and where L + 1 bytes are not there; else whether
the CRC of the first L - 1 bytes is the trailer at L - 1 and L. Bytes after `f[L]` are ignored. -/
def crcValid (f : List Byte) : Bool :=
  if f.length < 1 then false
  else
    let len := (byteAt f 0).toNat
    if len < 1 then false
    else if f.length < len + 1 then false
    else crc16 (slice f 0 (len - 1)) == littleEndian (byteAt f (len - 1)) (byteAt f len)

end Sys2Proof.Machine
end

