-- ==== Sys2Proof/Machine/Frames.lean ====
section
/-! DEFINITION. The wire frames: the command template (42_command_encoder.md R70), the layout of an inventory response
(30_encoding.md R53 to R55), the decode pass (43_frame_decoder.md R78 to R82) and the tag records of a frame
(44_tag_decoder.md R92 to R97). All pure functions of byte sequences. -/

namespace Sys2Proof.Machine

/-- `buildFrame` (R70): the length byte `|P| + 4`, BCAST_ADDR, the opcode, the payload, the trailer. -/
def buildFrame (opcode : Byte) (payload : List Byte) : List Byte :=
  withCrc ([BitVec.ofNat 8 (payload.length + 4), config.bcastAddr, opcode] ++ payload)

/-- An inventory response frame (R53 to R55): the header `length, address, opcode, status`, then `body` (the count byte and
the records), then the trailer. Its length byte is the byte count less one (R47). -/
def responseFrame (address status : Byte) (body : List Byte) : List Byte :=
  withCrc ([BitVec.ofNat 8 (config.hdrLen + body.length + 1), address, config.cmdInventory, status] ++ body)

/-- The loop of `decodeScan` (R78), from index `i` with the frames `found` so far: step 1 (R79), step 2 (R80), step 3 (R81)
and step 4 (R82) in that order. The first argument bounds the turns; each turn that does not stop increases `i`. -/
def decodeLoop (buf : List Byte) : Nat → Nat → List (List Byte) → Nat × List (List Byte)
  | 0, i, found => (i, found)
  | fuel + 1, i, found =>
    if buf.length - i < config.minAvail then (i, found)
    else
      let len := (byteAt buf i).toNat
      if len < config.lenMin ∨ config.lenMax < len then decodeLoop buf fuel (i + 1) found
      else if buf.length - i < len + 1 then (i, found)
      else
        let cand := slice buf i (i + len + 1)
        if crcValid cand then decodeLoop buf fuel (i + len + 1) (found ++ [cand])
        else decodeLoop buf fuel (i + 1) found

/-- `decodeScan` (R78): the bytes consumed and the frames found, in buffer order. `|B|` turns are enough (R87). -/
def decodeScan (buf : List Byte) : Nat × List (List Byte) := decodeLoop buf buf.length 0 []

/-- `epcLen` (R95): twice PC[15:11], or EPC_DEFAULT where that is 0 or exceeds EPC_MAX. -/
def epcLen (pc : Half) : Nat :=
  let words := ((pc >>> 11) &&& 0x1F).toNat
  let len := words * 2
  if len = 0 ∨ config.epcMax < len then config.epcDefault else len

/-- The record loop of `tagRecords` (R92, R96): at most `num` records from position `pos`, none reaching past `stop`, the
index of the frame's trailer (R94); it stops at the first record that does not fit. -/
def tagLoop (f : List Byte) (stop : Nat) : Nat → Nat → List (List Byte × Int)
  | 0, _ => []
  | num + 1, pos =>
    if stop < pos + 2 then []
    else
      let e := epcLen (bigEndian (byteAt f pos) (byteAt f (pos + 1)))
      if stop < pos + 2 + e + 1 then []
      else (slice f (pos + 2) (pos + 2 + e), sext8 (byteAt f (pos + 2 + e))) :: tagLoop f stop num (pos + e + 3)

/-- `tagRecords` (R92): nothing where the frame is incomplete (R103) or fails the gate (R93); else the records of
`f[5 : L-1]`, as many as `f[4]` says and the region holds. -/
def tagRecords (f : List Byte) : List (List Byte × Int) :=
  if f.length < config.hdrLen + 1 then []
  else
    let len := (byteAt f 0).toNat
    if f.length < len + 1 then []
    else if byteAt f 2 ≠ config.cmdInventory then []
    else if byteAt f 3 ∉ config.tagStatusSet then []
    else if len < config.tagMinLen then []
    else tagLoop f (len - 1) (byteAt f 4).toNat (config.hdrLen + 1)

end Sys2Proof.Machine
end

