-- ==== Sys2Proof/Decode.lean ====
section
/-! DEFINITION. The decoder, total on every code and rejecting by name, and after it the encoder, both written from
30_encoding.md: host operations (R40 to R44), command frames (R49 to R52), inventory responses (R53 to R55). -/

namespace Sys2Proof

open Machine

/-- The checks of R111 that the command word alone decides, in R111's order: RESET never faults, then IllegalOp,
ReservedBits, OperandCount. RxOverflow, the last check, needs RXLEN and stands in RX_PUSH (`Machine.execRxPush`). -/
def checkWord (cw : CommandWord) : Option Cause :=
  let op := cwOp cw
  if op = 0xF then none
  else if op ∈ [(0x0 : BitVec 4), 0xB, 0xC, 0xD, 0xE] then some .illegalOp
  else if cwRsv cw ≠ 0 then some .reservedBits
  else if op = 0x4 ∧ cwCount cw ≠ 5 then some .operandCount
  else if op = 0x6 ∧ cwCount cw ≠ 1 then some .operandCount
  else if op ∈ [(0x5 : BitVec 4), 0x8, 0xA] ∧ cwCount cw ≠ 0 then some .operandCount
  else none

/-- The operation that OP selects (R41), over the operand bytes. `checkWord` has passed, so the last two answers for OP 4
and 6 and the last answer of all are never taken. -/
def operation (op : BitVec 4) (rsv : BitVec 12) (data : List Byte) : Except Reject Instr :=
  match op.toNat with
  | 0x1 => .ok (.crc16 data)
  | 0x2 => .ok (.appendCrc data)
  | 0x3 => .ok (.verifyCrc data)
  | 0x4 =>
    match data with
    | [q, session, target, antenna, scantime] => .ok (.buildInventory q session target antenna scantime)
    | _ => .error (.fault .operandCount)
  | 0x5 => .ok .buildStop
  | 0x6 =>
    match data with
    | [power] => .ok (.buildSetPower power)
    | _ => .error (.fault .operandCount)
  | 0x7 => .ok (.rxPush data)
  | 0x8 => .ok .decode
  | 0x9 => .ok (.tagDecode data)
  | 0xA => .ok .process
  | 0xF => .ok (.reset rsv data)
  | _ => .error (.fault .illegalOp)

/-- A host transaction: complete when exactly N operand bytes have come (R43, R129), then checked (R111), then read (R41). -/
def decodeOp (t : Transaction) : Except Reject Instr :=
  if t.data.length < cwCount t.cw then .error .undelivered
  else if cwCount t.cw < t.data.length then .error .surplus
  else
    match checkWord t.cw with
    | some c => .error (.fault c)
    | none => operation (cwOp t.cw) (cwRsv t.cw) t.data

/-- A command frame (R49 to R52): the length byte, the address and the opcode of one of the three templates, and a trailer
that is the frame's CRC (R48). -/
def decodeCommand (f : List Byte) : Except Reject Instr :=
  match f with
  | [len, address, opcode, q, session, target, antenna, scantime, _, _] =>
    if len = 0x09 ∧ address = config.bcastAddr ∧ opcode = config.cmdInventory then
      if crcValid f then .ok (.wireInventory q session target antenna scantime) else .error .badTrailer
    else .error .noSuchFrame
  | [len, address, opcode, _, _] =>
    if len = 0x04 ∧ address = config.bcastAddr ∧ opcode = config.cmdStop then
      if crcValid f then .ok .wireStopInventory else .error .badTrailer
    else .error .noSuchFrame
  | [len, address, opcode, power, _, _] =>
    if len = 0x05 ∧ address = config.bcastAddr ∧ opcode = config.cmdSetPower then
      if crcValid f then .ok (.wireSetPower power) else .error .badTrailer
    else .error .noSuchFrame
  | _ => .error .noSuchFrame

/-- An inventory response frame (R53 to R55): opcode CMD_INVENTORY, as many bytes as its length byte says, room for the
status byte and the trailer, a length byte the frame decoder accepts (R47), and a trailer that is its CRC (R48). The address
is not checked (R86). -/
def decodeResponse (f : List Byte) : Except Reject Instr :=
  match f with
  | len :: address :: opcode :: status :: rest =>
    if opcode = config.cmdInventory ∧ f.length = len.toNat + 1 ∧ 2 ≤ rest.length ∧ len.toNat ≤ config.lenMax then
      if crcValid f then .ok (.wireInventoryResponse address status (rest.take (rest.length - 2)))
      else .error .badTrailer
    else .error .noSuchFrame
  | _ => .error .noSuchFrame

/-- The decoder. -/
def decode : Code → Except Reject Instr
  | .op t => decodeOp t
  | .command f => decodeCommand f
  | .response f => decodeResponse f

/-- The encoder (R41 for the operations, R50 to R55 for the frames). -/
def encode : Instr → Code
  | .crc16 data => .op ⟨makeCw 0x1 0 data.length, data⟩
  | .appendCrc data => .op ⟨makeCw 0x2 0 data.length, data⟩
  | .verifyCrc frame => .op ⟨makeCw 0x3 0 frame.length, frame⟩
  | .buildInventory q session target antenna scantime => .op ⟨makeCw 0x4 0 5, [q, session, target, antenna, scantime]⟩
  | .buildStop => .op ⟨makeCw 0x5 0 0, []⟩
  | .buildSetPower power => .op ⟨makeCw 0x6 0 1, [power]⟩
  | .rxPush data => .op ⟨makeCw 0x7 0 data.length, data⟩
  | .decode => .op ⟨makeCw 0x8 0 0, []⟩
  | .tagDecode frame => .op ⟨makeCw 0x9 0 frame.length, frame⟩
  | .process => .op ⟨makeCw 0xA 0 0, []⟩
  | .reset rsv discarded => .op ⟨makeCw 0xF rsv discarded.length, discarded⟩
  | .wireInventory q session target antenna scantime =>
    .command (buildFrame config.cmdInventory [q, session, target, antenna, scantime])
  | .wireStopInventory => .command (buildFrame config.cmdStop [])
  | .wireSetPower power => .command (buildFrame config.cmdSetPower [power])
  | .wireInventoryResponse address status body => .response (responseFrame address status body)

/-- The code of a word of spec/opcode_table.json. A host operation's row gives the 32 bits of CW, and the N operand bytes it
asks for are zeros. A wire row gives its fixed bytes as one big-endian number, as the table says: bytes 0..2 of a command
frame (24 bits), whose payload is zeros; bytes 2..3, opcode then status, of a response (16 bits), which is completed as the
shortest frame with a count byte, address and count zero. A wire frame's trailer is no operand: it is the frame's CRC (R48),
so it is computed (log 13). -/
def tableCode (nbits w : Nat) : Code :=
  if nbits ≤ 16 then
    .response (withCrc [0x06, 0, BitVec.ofNat 8 (w / 2 ^ 8), BitVec.ofNat 8 w, 0])
  else if nbits ≤ 24 then
    let len := BitVec.ofNat 8 (w / 2 ^ 16)
    .command (withCrc ([len, BitVec.ofNat 8 (w / 2 ^ 8), BitVec.ofNat 8 w] ++ List.replicate (len.toNat - 4) 0))
  else
    let cw := BitVec.ofNat 32 w
    .op ⟨cw, List.replicate (cwCount cw) 0⟩

/-- The instruction the decoder reads from a word of the opcode table. -/
def decodeTableWord (nbits w : Nat) : Option Instr :=
  match decode (tableCode nbits w) with
  | .ok i => some i
  | .error _ => none

end Sys2Proof
end

