-- ==== Sys2Proof/Machine/State.lean ====
section
/-! DEFINITION. The engine's state as plain data: everything 10_state.md gives it (R17 to R20), the host port's pending
transactions (log 3) and the parameter RX_CAP (log 1); the reasons a step can stop; the state at power-on. -/

namespace Sys2Proof.Machine

/-- An output event (10_state.md R19). -/
inductive Event where
  /-- `CrcOut(v)`, from CRC16. -/
  | crcOut (v : Half)
  /-- `BytesOut(s)`, from APPEND_CRC and the BUILD_ operations. -/
  | bytesOut (s : List Byte)
  /-- `ValidOut(b)`, from VERIFY_CRC. -/
  | validOut (b : Bool)
  /-- `FrameOut(f)`, from DECODE and PROCESS. -/
  | frameOut (f : List Byte)
  /-- `TagOut(epc, rssi)`, from TAG_DECODE and PROCESS. -/
  | tagOut (epc : List Byte) (rssi : Int)
  /-- `ConsumedOut(c)`, from DECODE and PROCESS. -/
  | consumedOut (c : Nat)
  deriving DecidableEq, Repr

/-- The FAULT register (10_state.md R20). -/
structure FaultReg where
  /-- FAULT.valid: a fault has been raised since the last RESET. -/
  valid : Bool
  /-- FAULT.cause: the cause code of the first fault; 0 while valid is 0. -/
  cause : BitVec 4
  /-- FAULT.cw: the command word that raised it; 0 while valid is 0. -/
  cw : CommandWord
  deriving DecidableEq, Repr

/-- The FAULT register with every field 0 (R26). -/
def FaultReg.clear : FaultReg := ⟨false, 0, 0⟩

/-- A byte memory: the bytes that hold a value, at rising addresses. An address that is not listed holds no value (R27). -/
abbrev Memory := List Host.Cell

/-- The canonical form: addresses strictly rising. (No listed entry can equal what an unlisted address reads as, since an
unlisted address holds no value at all.) -/
abbrev Memory.wf (m : Memory) : Prop := m.Pairwise (fun x y => x.1 < y.1)

/-- The engine's state. -/
structure State where
  /-- RX_CAP (R9): the capacity the engine is built with. It is configuration and no state of the engine (R25): the value of
  `Config.rxCap`, carried here as the argument R9 makes it, since a step has no argument but the state. No operation writes
  it (log 1). -/
  rxCap : Nat
  /-- RXBUF (R17): the bytes that hold a value, by index. -/
  rxbuf : Memory
  /-- RXLEN (R18): the number of valid bytes at the front of RXBUF. -/
  rxLen : BitVec 16
  /-- FAULT (R20). -/
  fault : FaultReg
  /-- OUT (R19), oldest event first. -/
  out : List Event
  /-- The host port: the transactions the host has issued and the engine has not served, oldest first (R36, R129, log 3). -/
  port : List Transaction
  deriving DecidableEq, Repr

/-- What the host may read between operations (R21). -/
structure StatusView where
  /-- RXLEN. -/
  rxLen : BitVec 16
  /-- RXBUF[0 : RXLEN]; none in a state, which no run reaches, where one of them holds no value. -/
  received : Option (List Byte)
  /-- The three FAULT fields. -/
  fault : FaultReg
  deriving DecidableEq, Repr

/-- Why the machine stops with a fault. These are the model's own stops, for accesses to RXBUF that the spec says never
occur (R13, R27); the engine's faults of 60_exceptions.md are next states that set FAULT. No state that meets the invariant
`State.Inv` takes one. -/
inductive Fault where
  /-- Raised by `memRead` on an index of RXBUF that holds no value: "reading one is never a step of this machine" (R27).
  Safe: the machine stops. -/
  | noValue (index : Nat)
  /-- Raised by `memRead` and `memWrite` on an index at or past RX_CAP, which does not exist (R17, R28). Safe: the machine
  stops. -/
  | outsideBuffer (index : Nat)
  deriving DecidableEq, Repr

/-- Why the machine gives no meaning. -/
inductive Refusal where
  /-- Raised by an arm of `exec` whose instruction has no meaning yet; no arm of this model is such an arm. Safe. -/
  | notModelled (mnemonic : String)
  /-- Raised by `step` where more than N operand bytes stand behind a command word: "A host move not listed here is not
  modelled: the engine has no such move" (R129, log 5). Safe: the machine stops. -/
  | hostMove
  deriving DecidableEq, Repr

/-- What fetching from the host port gives (R129). -/
inductive Fetched where
  /-- No transaction, or one whose operand bytes have not all been delivered: no operation begins. -/
  | waiting
  /-- The oldest transaction holds more than N operand bytes. -/
  | overrun
  /-- The oldest transaction, complete, and the state with it taken off the port. -/
  | taken (t : Transaction) (s : State)
  deriving DecidableEq, Repr

/-- Power-on (R124): the reset values of R26 with OUT empty (log 12), and an idle host port (log 3). -/
def State.reset : State where
  rxCap := config.rxCap
  rxbuf := []
  rxLen := 0
  fault := .clear
  out := []
  port := []

end Sys2Proof.Machine
end

