-- ==== Sys2Proof/Machine/Flags.lean ====
section
/-! DEFINITION. The engine keeps no condition flags (10_state.md R22). Its one status register is FAULT: the cause codes
(60_exceptions.md R110) and the whole check of a command word against the state (R111). -/

namespace Sys2Proof.Machine

/-- The code of a cause, as FAULT.cause holds it (R110). -/
def causeCode : Cause → BitVec 4
  | .illegalOp => 1
  | .reservedBits => 2
  | .operandCount => 3
  | .rxOverflow => 4

/-- The last check of R111: `RXLEN + N > RX_CAP`. -/
def overflows (s : State) (n : Nat) : Bool := decide (s.rxCap < s.rxLen.toNat + n)

/-- `check(CW, RXLEN)` (R111): the cause of the fault the operation raises, if any. -/
def check (cw : CommandWord) (s : State) : Option Cause :=
  match checkWord cw with
  | some c => some c
  | none => if cwOp cw = 0x7 ∧ overflows s (cwCount cw) then some .rxOverflow else none

end Sys2Proof.Machine
end

