-- ==== Sys2Proof/Machine/Ops.lean ====
section
/-! DEFINITION. The named operations over the state: RXBUF (00_scope.md R12), OUT, the FAULT register (fault entry and the
way out of it, 60_exceptions.md R112 to R114), the host port (70_reset_and_hazards.md R129) and the status view. -/

namespace Sys2Proof.Machine

/-! ### Byte memory -/

/-- The byte at an address, none where it holds no value (R27). -/
def Memory.get : Memory → Nat → Option Byte
  | [], _ => none
  | (a, b) :: m, i => if i = a then some b else Memory.get m i

/-- Store a byte at an address, keeping the addresses rising. -/
def Memory.set : Memory → Nat → Byte → Memory
  | [], i, v => [(i, v)]
  | (a, b) :: m, i, v =>
    if i < a then (i, v) :: (a, b) :: m
    else if i = a then (i, v) :: m
    else (a, b) :: Memory.set m i v

/-- Store a byte sequence at consecutive addresses. -/
def Memory.setMany : Memory → Nat → List Byte → Memory
  | m, _, [] => m
  | m, i, v :: vs => Memory.setMany (Memory.set m i v) (i + 1) vs

/-- Only the addresses below `n` keep their values (R27). -/
def Memory.keepBelow (m : Memory) (n : Nat) : Memory := m.filter (fun c => decide (c.1 < n))

/-- The cells of a byte sequence at consecutive addresses. -/
def Memory.cells : Nat → List Byte → Memory
  | _, [] => []
  | i, b :: bs => (i, b) :: Memory.cells (i + 1) bs

/-! ### Field updates -/

/-- `Emit(e)` for each event of `es`, in order (R12, R19). -/
def State.emit (s : State) (es : List Event) : State := { s with out := s.out ++ es }

/-- RXBUF and RXLEN together (R18). -/
def State.setRx (s : State) (m : Memory) (n : Nat) : State := { s with rxbuf := m, rxLen := BitVec.ofNat 16 n }

/-- The FAULT register (R20). -/
def State.setFault (s : State) (f : FaultReg) : State := { s with fault := f }

/-- The host port's pending transactions. -/
def State.setPort (s : State) (p : List Transaction) : State := { s with port := p }

/-! ### RXBUF -/

/-- One byte of RXBUF. An index at or past RX_CAP does not exist (R17), and one that is not listed holds no value (R27). -/
def readByte (s : State) (i : Nat) : Except Fault Byte :=
  if s.rxCap ≤ i then .error (.outsideBuffer i)
  else
    match Memory.get s.rxbuf i with
    | some b => .ok b
    | none => .error (.noValue i)

/-- `MemRead(i, n)` (R12): RXBUF[i : i+n]. -/
def memRead (s : State) : Nat → Nat → Except Fault (List Byte)
  | _, 0 => .ok []
  | i, n + 1 =>
    match readByte s i with
    | .error e => .error e
    | .ok b =>
      match memRead s (i + 1) n with
      | .error e => .error e
      | .ok bs => .ok (b :: bs)

/-- `MemWrite(i, n, v)` (R12): the bytes of `v` to RXBUF[i : i+n], as the new contents of RXBUF (log 7). -/
def memWrite (s : State) (i : Nat) (v : List Byte) : Except Fault Memory :=
  if s.rxCap < i + v.length then .error (.outsideBuffer (i + v.length - 1))
  else .ok (Memory.setMany s.rxbuf i v)

/-- The buffered stream, RXBUF[0 : RXLEN] (R18). -/
def received (s : State) : Except Fault (List Byte) := memRead s 0 s.rxLen.toNat

/-- `compact(c)` (R83): the unconsumed bytes move to index 0, RXLEN becomes their number, and the bytes beyond it are
again without value (R27). -/
def compact (c : Nat) (s : State) : Except Fault State :=
  let n := s.rxLen.toNat - c
  match memRead s c n with
  | .error e => .error e
  | .ok kept =>
    match memWrite s 0 kept with
    | .error e => .error e
    | .ok m => .ok (s.setRx (Memory.keepBelow m n) n)

/-- The bytes of RX_PUSH (R77): stored behind the buffered stream, RXLEN grows by their number. -/
def append (data : List Byte) (s : State) : Except Fault State :=
  match memWrite s s.rxLen.toNat data with
  | .error e => .error e
  | .ok m => .ok (s.setRx m (s.rxLen.toNat + data.length))

/-- A meaning's answer from an access to RXBUF. -/
def finish : Except Fault State → Host.Outcome State Fault Refusal
  | .ok s => .next s
  | .error e => .fault e

/-! ### Faults -/

/-- FAULT ENTRY (R112), the one shared operation that takes a fault: FAULT := (1, code, CW) and nothing else, and only
while FAULT.valid = 0, so that the first fault is kept (R20, R113). -/
def raiseFault (c : Cause) (cw : CommandWord) (s : State) : State :=
  if s.fault.valid then s else s.setFault ⟨true, causeCode c, cw⟩

/-- THE WAY OUT OF A FAULT (R114, R123), which is RESET's whole effect: RXLEN 0, RXBUF without values, FAULT clear; OUT is
kept. -/
def resetEngine (s : State) : State := (s.setRx [] 0).setFault .clear

/-- The faulted engine ignores every operation but RESET (R113): no event, no change of RXBUF, RXLEN or FAULT. -/
def unlessFaulted (s : State) (k : Host.Outcome State Fault Refusal) : Host.Outcome State Fault Refusal :=
  if s.fault.valid then .next s else k

/-! ### The host port -/

/-- Take the oldest transaction off the port. An operation does not begin until its N operand bytes have been delivered
(R129); that holds for an operation of a faulted engine too, whose bytes are delivered and discarded (R113, log 14). -/
def fetch (s : State) : Fetched :=
  match s.port with
  | [] => .waiting
  | t :: rest =>
    if t.data.length < cwCount t.cw then .waiting
    else if cwCount t.cw < t.data.length then .overrun
    else .taken t (s.setPort rest)

/-- The host issues a whole operation (R40). -/
def State.issue (s : State) (t : Transaction) : State := s.setPort (s.port ++ [t])

/-- The host delivers a command word: a new transaction, with no operand byte yet (R129). A word delivered while an earlier
operation still lacks operand bytes is no move of the host; it opens a new transaction behind that operation. Every later
byte goes to the new one, so that the earlier one never completes and the step waits for ever (DESIGN CHOICE, log 18). -/
def State.deliverWord (s : State) (cw : CommandWord) : State := s.issue ⟨cw, []⟩

/-- The host delivers one operand byte of the operation it issued last (R43, R129). A byte for which no transaction stands on
the port is no move of the host; the state is unchanged by it (DESIGN CHOICE, log 17). -/
def State.deliverByte (s : State) (b : Byte) : State :=
  match s.port.getLast? with
  | some t => s.setPort (s.port.dropLast ++ [⟨t.cw, t.data ++ [b]⟩])
  | none => s

/-- The status view (R21). -/
def State.view (s : State) : StatusView := ⟨s.rxLen, (received s).toOption, s.fault⟩

/-! ### Placing an instruction -/

/-- The state whose next step serves the transaction `t`. -/
def State.placeOp (s : State) (t : Transaction) : State := s.setPort (t :: s.port)

/-- The state whose next step runs the instruction of `c`. A host operation is placed at the head of the port. A command
frame runs where the engine emits it, which is its BUILD_ operation (R71 to R73), with the payload bytes of the frame. A
response frame runs where the engine decodes it: it stands in RXBUF and PROCESS is placed on the port (R85; log 13). -/
def State.placeCode (s : State) : Code → State
  | .op t => s.placeOp t
  | .command f =>
    let payload := slice f 3 (f.length - 2)
    let op : BitVec 4 :=
      if byteAt f 2 = config.cmdInventory then 0x4 else if byteAt f 2 = config.cmdStop then 0x5 else 0x6
    s.placeOp ⟨makeCw op 0 payload.length, payload⟩
  | .response f => (s.setRx (Memory.cells 0 f) f.length).placeOp ⟨makeCw 0xA 0 0, []⟩

end Sys2Proof.Machine
end

