-- ==== Sys2Proof/Machine/CommandFamily.lean ====
section
/-! DEFINITION. The command encoder (42_command_encoder.md): BUILD_INVENTORY, BUILD_STOP, BUILD_SET_POWER. Pure templates
(R74); no operand is range-checked (R71, R73, R75). -/

namespace Sys2Proof.Machine

/-- BUILD_INVENTORY (R71): emits the Inventory command frame. -/
def execBuildInventory (q session target antenna scantime : Byte) (s : State) : Host.Outcome State Fault Refusal :=
  unlessFaulted s
    (.next (s.emit [.bytesOut (buildFrame config.cmdInventory [q, session, target, antenna, scantime])]))

/-- BUILD_STOP (R72): emits the Stop inventory command frame. -/
def execBuildStop (s : State) : Host.Outcome State Fault Refusal :=
  unlessFaulted s (.next (s.emit [.bytesOut (buildFrame config.cmdStop [])]))

/-- BUILD_SET_POWER (R73): emits the Set output power command frame. -/
def execBuildSetPower (power : Byte) (s : State) : Host.Outcome State Fault Refusal :=
  unlessFaulted s (.next (s.emit [.bytesOut (buildFrame config.cmdSetPower [power])]))

end Sys2Proof.Machine
end

