-- ==== Sys2Proof/Machine/CrcFamily.lean ====
section
/-! DEFINITION. The CRC family (41_crc.md): CRC16, APPEND_CRC, VERIFY_CRC. None reads or writes RXBUF, RXLEN or FAULT. -/

namespace Sys2Proof.Machine

/-- CRC16 (R62): emits the CRC of the operand bytes. -/
def execCrc16 (data : List Byte) (s : State) : Host.Outcome State Fault Refusal :=
  unlessFaulted s (.next (s.emit [.crcOut (crc16 data)]))

/-- APPEND_CRC (R63): emits the operand bytes followed by their CRC, low byte first. The first byte is not checked. -/
def execAppendCrc (data : List Byte) (s : State) : Host.Outcome State Fault Refusal :=
  unlessFaulted s (.next (s.emit [.bytesOut (withCrc data)]))

/-- VERIFY_CRC (R65): emits whether the operand is a frame whose trailer is its CRC. -/
def execVerifyCrc (frame : List Byte) (s : State) : Host.Outcome State Fault Refusal :=
  unlessFaulted s (.next (s.emit [.validOut (crcValid frame)]))

end Sys2Proof.Machine
end

