-- ==== Sys2Proof/Machine/FrameFamily.lean ====
section
/-! DEFINITION. The frame parser (43_frame_decoder.md): RX_PUSH, DECODE, PROCESS. -/

namespace Sys2Proof.Machine

/-- RX_PUSH (R77): appends the operand bytes to the buffered stream, or raises RxOverflow and writes no byte (R44, R111).
The command word that FAULT then records is RX_PUSH's own (log 15). -/
def execRxPush (data : List Byte) (s : State) : Host.Outcome State Fault Refusal :=
  unlessFaulted s
    (if overflows s data.length then .next (raiseFault .rxOverflow (makeCw 0x7 0 data.length) s)
     else finish (append data s))

/-- A decode pass over the buffered stream (R84, R85): `events` says what is emitted for each frame found, then ConsumedOut,
then compaction. -/
def decodePass (events : List Byte → List Event) (s : State) : Host.Outcome State Fault Refusal :=
  match received s with
  | .error e => .fault e
  | .ok buf =>
    let (c, frames) := decodeScan buf
    finish (compact c (s.emit (frames.flatMap events ++ [.consumedOut c])))

/-- The TagOut events of a frame (R85, R98). -/
def tagEvents (f : List Byte) : List Event := (tagRecords f).map (fun r => .tagOut r.1 r.2)

/-- DECODE (R84): emits FrameOut for each frame found. -/
def execDecode (s : State) : Host.Outcome State Fault Refusal :=
  unlessFaulted s (decodePass (fun f => [.frameOut f]) s)

/-- PROCESS (R85): emits FrameOut and then the frame's TagOut events for each frame found. -/
def execProcess (s : State) : Host.Outcome State Fault Refusal :=
  unlessFaulted s (decodePass (fun f => .frameOut f :: tagEvents f) s)

end Sys2Proof.Machine
end

