-- ==== Sys2Proof/Machine/SystemFamily.lean ====
section
/-! DEFINITION. RESET (70_reset_and_hazards.md R123), the engine's only system operation. -/

namespace Sys2Proof.Machine

/-- RESET (R123): performed in every state, a faulted one too (R113). CW[27:16] and the operand bytes have no effect (R42). -/
def execReset (_rsv : BitVec 12) (_discarded : List Byte) (s : State) : Host.Outcome State Fault Refusal :=
  .next (resetEngine s)

end Sys2Proof.Machine
end

