-- ==== Sys2Proof/Machine/TagFamily.lean ====
section
/-! DEFINITION. The tag record decoder (44_tag_decoder.md): TAG_DECODE. -/

namespace Sys2Proof.Machine

/-- TAG_DECODE (R98): emits TagOut for each record of the operand frame, whose CRC is not checked (R103). -/
def execTagDecode (frame : List Byte) (s : State) : Host.Outcome State Fault Refusal :=
  unlessFaulted s (.next (s.emit (tagEvents frame)))

end Sys2Proof.Machine
end

