-- ==== Sys2Proof/Machine/WireFamily.lean ====
section
/-! DEFINITION. The wire-frame rows of the opcode table (30_encoding.md R46 to R55). They are no host operations: no command
word decodes to one, so `step` never runs one of these arms. Each arm is the engine's own part in the frame (log 2): a
command frame is "emitted by the engine", a response frame is "decoded by the engine". -/

namespace Sys2Proof.Machine

/-- WIRE_INVENTORY (R50): the engine emits the frame. -/
def execWireInventory (q session target antenna scantime : Byte) (s : State) : Host.Outcome State Fault Refusal :=
  unlessFaulted s
    (.next (s.emit [.bytesOut (buildFrame config.cmdInventory [q, session, target, antenna, scantime])]))

/-- WIRE_STOP_INVENTORY (R51): the engine emits the frame. -/
def execWireStopInventory (s : State) : Host.Outcome State Fault Refusal :=
  unlessFaulted s (.next (s.emit [.bytesOut (buildFrame config.cmdStop [])]))

/-- WIRE_SET_POWER (R52): the engine emits the frame. -/
def execWireSetPower (power : Byte) (s : State) : Host.Outcome State Fault Refusal :=
  unlessFaulted s (.next (s.emit [.bytesOut (buildFrame config.cmdSetPower [power])]))

/-- WIRE_INVENTORY_RESPONSE (R53 to R55): the engine receives the frame's bytes and decodes them, which is the host
program's `FEED` of the frame (R59): RX_PUSH, then PROCESS. -/
def execWireInventoryResponse (address status : Byte) (body : List Byte) (s : State) :
    Host.Outcome State Fault Refusal :=
  match execRxPush (responseFrame address status body) s with
  | .next t => execProcess t
  | .fault e => .fault e
  | .refused r => .refused r

end Sys2Proof.Machine
end

