-- ==== Sys2Proof/Machine/Dispatch.lean ====
section
/-! DEFINITION. One arm per constructor of Instr, each one direct call of that instruction's meaning. -/

namespace Sys2Proof.Machine

def exec (i : Instr) (s : State) : Host.Outcome State Fault Refusal :=
  match i with
  | .crc16 data => Sys2Proof.Machine.execCrc16 data s
  | .appendCrc data => Sys2Proof.Machine.execAppendCrc data s
  | .verifyCrc frame => Sys2Proof.Machine.execVerifyCrc frame s
  | .buildInventory q session target antenna scantime => Sys2Proof.Machine.execBuildInventory q session target antenna scantime s
  | .buildStop => Sys2Proof.Machine.execBuildStop s
  | .buildSetPower power => Sys2Proof.Machine.execBuildSetPower power s
  | .rxPush data => Sys2Proof.Machine.execRxPush data s
  | .decode => Sys2Proof.Machine.execDecode s
  | .tagDecode frame => Sys2Proof.Machine.execTagDecode frame s
  | .process => Sys2Proof.Machine.execProcess s
  | .reset rsv discarded => Sys2Proof.Machine.execReset rsv discarded s
  | .wireInventory q session target antenna scantime => Sys2Proof.Machine.execWireInventory q session target antenna scantime s
  | .wireStopInventory => Sys2Proof.Machine.execWireStopInventory s
  | .wireSetPower power => Sys2Proof.Machine.execWireSetPower power s
  | .wireInventoryResponse address status body => Sys2Proof.Machine.execWireInventoryResponse address status body s

end Sys2Proof.Machine
end

