-- ==== Sys2Proof/Machine/Step.lean ====
section
/-! DEFINITION. One step of the engine: it serves one complete host transaction (00_scope.md R4). -/

namespace Sys2Proof.Machine

/-- One step. With no complete transaction on the port no operation begins (70_reset_and_hazards.md R129): the engine waits
and the state is unchanged (log 4). A complete one is taken off the port and decoded; a command word that R111 rejects
enters a fault, which a faulted engine ignores (60_exceptions.md R112, R113); any other runs. -/
def step (s : State) : Host.Outcome State Fault Refusal :=
  match fetch s with
  | .waiting => .next s
  | .overrun => .refused .hostMove
  | .taken t s' =>
    match decode (.op t) with
    | .ok i => exec i s'
    | .error (.fault c) => .next (raiseFault c t.cw s')
    | .error _ => .refused .hostMove

/-- `s` with the instruction of a word of spec/opcode_table.json placed where the next step runs it: at the head of the
host port for a host operation (log 3), where the engine emits or decodes it for a wire frame (log 13). -/
def State.withFetchWord (s : State) (nbits w : Nat) : State := s.placeCode (tableCode nbits w)

end Sys2Proof.Machine
end

