-- ==== Sys2Proof/Machine/Asm.lean ====
section
/-! DEFINITION. The assembler (30_encoding.md R59): a line of text to a line of syntax, and a line of syntax to the host
transactions it stands for. N is the count of bytes written and RSV is 0; the engine, not the assembler, checks N. -/

namespace Sys2Proof.Machine

/-- The OP value of a mnemonic (R41). -/
def mnemonicOp : Mnemonic → BitVec 4
  | .crc16 => 0x1
  | .appendCrc => 0x2
  | .verifyCrc => 0x3
  | .buildInventory => 0x4
  | .buildStop => 0x5
  | .buildSetPower => 0x6
  | .rxPush => 0x7
  | .decode => 0x8
  | .tagDecode => 0x9
  | .process => 0xA
  | .reset => 0xF

/-- The mnemonic a word spells (R41), if any. -/
def mnemonicOf (word : List Char) : Option Mnemonic :=
  if word = "CRC16".toList then some .crc16
  else if word = "APPEND_CRC".toList then some .appendCrc
  else if word = "VERIFY_CRC".toList then some .verifyCrc
  else if word = "BUILD_INVENTORY".toList then some .buildInventory
  else if word = "BUILD_STOP".toList then some .buildStop
  else if word = "BUILD_SET_POWER".toList then some .buildSetPower
  else if word = "RX_PUSH".toList then some .rxPush
  else if word = "DECODE".toList then some .decode
  else if word = "TAG_DECODE".toList then some .tagDecode
  else if word = "PROCESS".toList then some .process
  else if word = "RESET".toList then some .reset
  else none

/-- The transaction of a mnemonic and its bytes: CW = (OP << 28) | N. -/
def transactionOf (m : Mnemonic) (bytes : List Byte) : Transaction := ⟨makeCw (mnemonicOp m) 0 bytes.length, bytes⟩

/-- The transactions a line stands for, in issue order; none where the line has no encoding (more than 65535 bytes, or a
power outside -128..127). `BUILD_SET_POWER d` is the byte `d mod 256`, and FEED is RX_PUSH followed by PROCESS. -/
def assemble : AsmLine → Option (List Transaction)
  | .op m bytes => if bytes.length ≤ maxOperands then some [transactionOf m bytes] else none
  | .setPower dBm =>
    if -128 ≤ dBm ∧ dBm ≤ 127 then some [transactionOf .buildSetPower [BitVec.ofInt 8 dBm]] else none
  | .feed bytes =>
    if bytes.length ≤ maxOperands then some [transactionOf .rxPush bytes, transactionOf .process []] else none
  | .blank => some []

/-- The value of a decimal digit. -/
def decimalDigit (c : Char) : Option Nat :=
  if '0'.toNat ≤ c.toNat ∧ c.toNat ≤ '9'.toNat then some (c.toNat - '0'.toNat) else none

/-- The value of a hexadecimal digit, in either case. -/
def hexDigit (c : Char) : Option Nat :=
  if 'A'.toNat ≤ c.toNat ∧ c.toNat ≤ 'F'.toNat then some (c.toNat - 'A'.toNat + 10)
  else if 'a'.toNat ≤ c.toNat ∧ c.toNat ≤ 'f'.toNat then some (c.toNat - 'a'.toNat + 10)
  else decimalDigit c

/-- A two-digit hexadecimal byte. -/
def hexByte : List Char → Option Byte
  | [h, l] =>
    match hexDigit h, hexDigit l with
    | some x, some y => some (BitVec.ofNat 8 (16 * x + y))
    | _, _ => none
  | _ => none

/-- The natural number of decimal digits read after `acc`. -/
def decimalNat (acc : Nat) : List Char → Option Nat
  | [] => some acc
  | c :: cs =>
    match decimalDigit c with
    | some d => decimalNat (10 * acc + d) cs
    | none => none

/-- A signed decimal number of at least one digit. -/
def signedDecimal : List Char → Option Int
  | [] => none
  | ['-'] => none
  | '-' :: cs => (decimalNat 0 cs).map (fun n => -(n : Int))
  | cs => (decimalNat 0 cs).map (fun n => (n : Int))

/-- The words of a line, split at blanks, up to a `;` (R59). `word` is the word being read. -/
def wordsOf (word : List Char) : List Char → List (List Char)
  | [] => if word = [] then [] else [word]
  | c :: cs =>
    if c = ';' then (if word = [] then [] else [word])
    else if c = ' ' then (if word = [] then wordsOf [] cs else word :: wordsOf [] cs)
    else wordsOf (word ++ [c]) cs

/-- The bytes of operand words. -/
def bytesOf : List (List Char) → Option (List Byte)
  | [] => some []
  | w :: ws =>
    match hexByte w, bytesOf ws with
    | some b, some bs => some (b :: bs)
    | _, _ => none

/-- A line of text (R59). The operand of BUILD_SET_POWER is a byte where it is two hexadecimal digits, and a signed decimal
otherwise (DESIGN CHOICE, log 16). -/
def parseLine (line : List Char) : Option AsmLine :=
  match wordsOf [] line with
  | [] => some .blank
  | w :: ws =>
    match bytesOf ws with
    | some bytes =>
      if w = "FEED".toList then some (.feed bytes) else (mnemonicOf w).map (fun m => .op m bytes)
    | none =>
      match mnemonicOf w, ws with
      | some .buildSetPower, [d] => (signedDecimal d).map .setPower
      | _, _ => none

end Sys2Proof.Machine
end

