-- ==== Sys2Proof/Safety.lean ====
section
/-! DEFINITION. What the claims speak of: the legal states (`State.Inv`), the host keeping its duty (`State.PortInDuty`), a
legal output event, a valid frame, the bytes of a tag record, and the host programs that feed a stream in pieces. -/

namespace Sys2Proof.Machine

/-- A legal output event (10_state.md R19): FrameOut carries f[0] + 1 bytes, and a TagOut's RSSI lies in -128..127. -/
def Event.legal : Event → Bool
  | .frameOut f => decide (f.length = (byteAt f 0).toNat + 1)
  | .tagOut _ rssi => decide (-128 ≤ rssi ∧ rssi ≤ 127)
  | .crcOut _ | .bytesOut _ | .validOut _ | .consumedOut _ => true

/-- The frame a FrameOut event carries. -/
def Event.frame? : Event → Option (List Byte)
  | .frameOut f => some f
  | .crcOut _ | .bytesOut _ | .validOut _ | .tagOut _ _ | .consumedOut _ => none

/-- A legal FAULT register (R20, R110): all zero while valid is 0, one of the four codes while it is 1. -/
def FaultReg.legal (f : FaultReg) : Bool :=
  if f.valid then decide (f.cause ∈ [(1 : BitVec 4), 2, 3, 4]) else decide (f = .clear)

/-- The legal states. RX_CAP within its bounds (R9); RXLEN at most RX_CAP (R18); exactly the indices below RXLEN hold a
value, in canonical form (R18, R27); FAULT and OUT legal (R19, R20). -/
abbrev State.Inv (s : State) : Prop :=
  config.rxCapMin ≤ s.rxCap ∧ s.rxCap ≤ config.rxCapMax ∧ s.rxLen.toNat ≤ s.rxCap ∧
  s.rxbuf.map Prod.fst = List.range s.rxLen.toNat ∧ s.fault.legal = true ∧ s.out.all Event.legal = true

/-- The host keeps the duty of R129: it delivers no more operand bytes than each command word asks for. -/
abbrev State.PortInDuty (s : State) : Prop := ∀ t ∈ s.port, t.data.length ≤ cwCount t.cw

/-- A valid frame (43_frame_decoder.md R89): LEN_MIN <= V[0] <= LEN_MAX, |V| = V[0] + 1, and crcValid. -/
abbrev validFrame (v : List Byte) : Prop :=
  config.lenMin ≤ (byteAt v 0).toNat ∧ (byteAt v 0).toNat ≤ config.lenMax ∧
  v.length = (byteAt v 0).toNat + 1 ∧ crcValid v = true

/-- A tag record as it stands on the wire (30_encoding.md R56): the PC word, the EPC bytes, the RSSI byte. -/
structure WireRecord where
  /-- The PC word. -/
  pc : Half
  /-- The EPC bytes, in wire order. -/
  epc : List Byte
  /-- The RSSI byte. -/
  rssi : Byte
  deriving DecidableEq, Repr

/-- The record's bytes: PC[15:8], PC[7:0], the EPC, the RSSI byte (R56). -/
def WireRecord.bytes (r : WireRecord) : List Byte := [hiByte r.pc, loByte r.pc] ++ r.epc ++ [r.rssi]

/-- The transactions of a host that pushes a stream piece by piece and issues DECODE after each piece (R127, R129). -/
def pushAndDecode (pieces : List (List Byte)) : List Transaction :=
  pieces.flatMap (fun p => [⟨makeCw 0x7 0 p.length, p⟩, ⟨makeCw 0x8 0 0, []⟩])

end Sys2Proof.Machine
end

