-- ==== Sys2Proof/Certificates/Slice0/Obligations.lean ====
section
/-! DEFINITION. The statements for the provers. Each follows numbered rules of spec/; the numbers in them are the spec's own
(CRC_INIT 0xFFFF, LEN_MIN 4, LEN_MAX 250, ...), not the model's configuration fields. A statement about the buffered stream
says `received s = .ok bs`: RXBUF[0 : RXLEN] is `bs`. -/

open Sys2Proof Sys2Proof.Machine

/-! ### Encoding -/

/-- Every well-formed instruction of every row decodes from its own encoding, with every operand (R40 to R43, R50 to R55).
That RESET's CW[27:16] and discarded bytes, which R42 ignores, are operands is the model's syntax (log 11). -/
def Obligations.DecodeOfEncode : Prop :=
  ∀ i : Instr, i.wellFormed = true → decode (encode i) = .ok i

/-- What the decoder accepts encodes back to the very bits it was read from, so no bit is dropped and no two codes share an
instruction. For RESET, whose CW[27:0] and operand bytes R42 ignores, this holds because the model's syntax keeps them
(log 11). -/
def Obligations.EncodeOfDecode : Prop :=
  ∀ (c : Code) (i : Instr), decode c = .ok i → encode i = c ∧ i.wellFormed = true

/-- Words written out from the spec decode to the operations they stand for: one of each family (R41, R50 to R55). For RESET, the
fields that R42 ignores are the model's syntax (log 11). -/
def Obligations.SpecWordsDecode : Prop :=
  decode (.op ⟨0x10000002, [0xFF, 0xFF]⟩) = .ok (.crc16 [0xFF, 0xFF]) ∧
  decode (.op ⟨0x40000005, [0x04, 0x00, 0x00, 0x80, 0x0A]⟩) = .ok (.buildInventory 0x04 0x00 0x00 0x80 0x0A) ∧
  decode (.op ⟨0x70000002, [0x11, 0x22]⟩) = .ok (.rxPush [0x11, 0x22]) ∧
  decode (.op ⟨0x90000000, []⟩) = .ok (.tagDecode []) ∧
  decode (.op ⟨0xF1230001, [0x55]⟩) = .ok (.reset 0x123 [0x55]) ∧
  decode (.command [0x04, 0xFF, 0x93, 0x80, 0x03]) = .ok .wireStopInventory ∧
  decode (.response [0x06, 0x00, 0x01, 0xFB, 0x00, 0x6C, 0xC9]) = .ok (.wireInventoryResponse 0x00 0xFB [0x00])

/-! ### The host port and the step -/

/-- A complete transaction that decodes is run by the step, with the transaction taken off the port. -/
def Obligations.StepRunsDecodedOperation : Prop :=
  ∀ (s : State) (t : Transaction) (rest : List Transaction) (i : Instr),
    s.port = t :: rest → decode (.op t) = .ok i → step s = exec i { s with port := rest }

/-- Only a complete operation is served. None begins without a transaction, or before its N operand bytes have been
delivered: the state is unchanged (R129; that the wait is a step of its own is the model's choice, log 4). Surplus operand
bytes are no move of the host, and are refused by name (R129, log 5). -/
def Obligations.StepServesCompleteOperationsOnly : Prop :=
  ∀ s : State, (s.port = [] → step s = .next s) ∧
    ∀ (t : Transaction) (rest : List Transaction), s.port = t :: rest →
      (t.data.length < t.cw.toNat % 2 ^ 16 → step s = .next s) ∧
      (t.cw.toNat % 2 ^ 16 < t.data.length → step s = .refused .hostMove)

/-- A command word and any number of bytes delivered one by one behind it make one transaction at the end of the port, with
the bytes in order; it is the complete operation of R40 and R43 where there are N of them. The port is the model's own field
(log 3). Two deliveries that are no moves of the host are covered too, and rest on the model's choice: behind an unfinished
last transaction the word opens a new one, which takes the bytes (log 18), and bytes beyond the N-th are kept with the
transaction, for the step to refuse (log 5, log 17). -/
def Obligations.DeliveredBytesMakeTheOperation : Prop :=
  ∀ (s : State) (cw : CommandWord) (bytes : List Byte),
    bytes.foldl State.deliverByte (s.deliverWord cw) = { s with port := s.port ++ [⟨cw, bytes⟩] }

/-! ### Faults -/

/-- The check of R111, in its order and over the bits of CW as numbers. The step performs the operation's effect where the
check passes and no effect but on FAULT where it does not, never before the operand bytes are there (R129; that the
state is unchanged by a step then is the model's choice, log 4); and a word with two causes reports the first. -/
def Obligations.CheckOrder : Prop :=
  (∀ (s : State) (cw : CommandWord),
    check cw s =
      (if cw.toNat / 2 ^ 28 = 15 then none
       else if cw.toNat / 2 ^ 28 = 0 ∨ 11 ≤ cw.toNat / 2 ^ 28 then some .illegalOp
       else if cw.toNat / 2 ^ 16 % 2 ^ 12 ≠ 0 then some .reservedBits
       else if cw.toNat / 2 ^ 28 = 4 ∧ cw.toNat % 2 ^ 16 ≠ 5 then some .operandCount
       else if cw.toNat / 2 ^ 28 = 6 ∧ cw.toNat % 2 ^ 16 ≠ 1 then some .operandCount
       else if (cw.toNat / 2 ^ 28 = 5 ∨ cw.toNat / 2 ^ 28 = 8 ∨ cw.toNat / 2 ^ 28 = 10) ∧ cw.toNat % 2 ^ 16 ≠ 0 then
         some .operandCount
       else if cw.toNat / 2 ^ 28 = 7 ∧ s.rxCap < s.rxLen.toNat + cw.toNat % 2 ^ 16 then some .rxOverflow
       else none)) ∧
  (∀ (s : State) (t : Transaction) (rest : List Transaction),
    s.port = t :: rest → t.data.length = t.cw.toNat % 2 ^ 16 → check t.cw s = none →
      ∃ i : Instr, decode (.op t) = .ok i ∧ step s = exec i { s with port := rest }) ∧
  (∀ (s : State) (t : Transaction) (rest : List Transaction) (c : Cause),
    s.port = t :: rest → t.data.length = t.cw.toNat % 2 ^ 16 → check t.cw s = some c →
      ∃ f : FaultReg, step s = .next { s with port := rest, fault := f }) ∧
  (∀ (s : State) (t : Transaction) (rest : List Transaction),
    s.port = t :: rest → t.data.length < t.cw.toNat % 2 ^ 16 → step s = .next s) ∧
  ∀ s : State, check 0x00010001 s = some .illegalOp

/-- Fault entry (R112): with FAULT clear, an operation whose check gives a cause sets FAULT to (1, its code, CW) and changes
nothing else but the port it was read from; no event is emitted. -/
def Obligations.FaultEntryWritesFaultAlone : Prop :=
  ∀ (s : State) (t : Transaction) (rest : List Transaction) (c : Cause),
    s.port = t :: rest → t.data.length = t.cw.toNat % 2 ^ 16 → s.fault.valid = false → check t.cw s = some c →
      step s = .next { s with
        port := rest
        fault := ⟨true, match c with
          | .illegalOp => 1
          | .reservedBits => 2
          | .operandCount => 3
          | .rxOverflow => 4, t.cw⟩ }

/-- The faulted engine (R113): every operation but RESET, decodable or not, is consumed with its operand bytes and has no
effect: no event, and RXBUF, RXLEN and FAULT are unchanged. -/
def Obligations.FaultedEngineIgnores : Prop :=
  ∀ (s : State) (t : Transaction) (rest : List Transaction),
    s.fault.valid = true → s.port = t :: rest → t.data.length = t.cw.toNat % 2 ^ 16 → t.cw.toNat / 2 ^ 28 ≠ 15 →
      step s = .next { s with port := rest }

/-- Only RESET leaves the faulted engine, and it empties RXBUF and clears FAULT (R114). -/
def Obligations.OnlyResetClearsFault : Prop :=
  ∀ s t : State, s.fault.valid = true → step s = .next t → t.fault ≠ s.fault →
    t.fault = ⟨false, 0, 0⟩ ∧ t.rxLen = 0 ∧ t.rxbuf = [] ∧ t.out = s.out ∧
    ∃ (op : Transaction) (rest : List Transaction), s.port = op :: rest ∧ op.cw.toNat / 2 ^ 28 = 15

/-- FAULT is written only by a fault entry, with a code of 1 to 4 and the command word served, and by RESET (R20, R110). -/
def Obligations.FaultWrittenOnlyByFaultOrReset : Prop :=
  ∀ s t : State, step s = .next t → t.fault ≠ s.fault →
    ∃ (op : Transaction) (rest : List Transaction), s.port = op :: rest ∧
      ((op.cw.toNat / 2 ^ 28 = 15 ∧ t.fault = ⟨false, 0, 0⟩) ∨
       (op.cw.toNat / 2 ^ 28 ≠ 15 ∧ s.fault.valid = false ∧ t.fault.valid = true ∧ t.fault.cw = op.cw ∧
        1 ≤ t.fault.cause.toNat ∧ t.fault.cause.toNat ≤ 4))

/-- Whether a step faults, and with which cause, depends only on the command word and RXLEN (and the capacity): neither the
operand bytes nor the contents of RXBUF matter (R109). -/
def Obligations.FaultDependsOnWordAndLength : Prop :=
  ∀ (s₁ s₂ u₁ u₂ : State) (t₁ t₂ : Transaction) (r₁ r₂ : List Transaction),
    s₁.port = t₁ :: r₁ → s₂.port = t₂ :: r₂ → t₁.cw = t₂.cw → t₁.data.length = t₂.data.length →
    s₁.rxLen = s₂.rxLen → s₁.rxCap = s₂.rxCap → s₁.fault = s₂.fault →
    step s₁ = .next u₁ → step s₂ = .next u₂ → u₁.fault = u₂.fault

/-! ### Invariants of every step -/

/-- The state at power-on is legal: RXLEN, RXBUF, FAULT and OUT as R18, R20 and R26 have them. That RX_CAP is within the
bounds of R9 rests on the model's choice of 256 (log 1), and that the host's duty (R129) is kept rests on the model's choice
of an empty port (log 3). -/
def Obligations.ResetStateIsLegal : Prop := State.reset.Inv ∧ State.reset.PortInDuty

/-- Power-on (R124, R26): RXLEN 0, no byte of RXBUF holds a value, FAULT (0, 0, 0), OUT empty; a RESET leaves it so. -/
def Obligations.PowerOnState : Prop :=
  State.reset.rxLen = 0 ∧ (∀ i, Memory.get State.reset.rxbuf i = none) ∧ State.reset.fault = ⟨false, 0, 0⟩ ∧
  State.reset.out = [] ∧ ∀ (rsv : BitVec 12) (discarded : List Byte), exec (.reset rsv discarded) State.reset = .next State.reset

/-- Every step from a legal state leads to a legal state: RXLEN within RX_CAP, exactly the bytes below RXLEN with a value,
FAULT one of its legal values, every event of OUT within its payload's bounds. -/
def Obligations.StepKeepsLegalState : Prop :=
  ∀ s t : State, s.Inv → step s = .next t → t.Inv

/-- Every step keeps the canonical form of RXBUF, from every state whose memory has it. The form (a list of cells at rising
indices without repeats) is the model's own representation of RXBUF (log 7); no rule of the spec speaks of it. -/
def Obligations.StepKeepsCanonicalMemory : Prop :=
  ∀ s t : State, s.rxbuf.wf → step s = .next t → t.rxbuf.wf

/-- In a legal state every instruction answers a next state, whatever its operand bytes, and so does the step while the host
keeps its duty: the engine is total (R13). By the model's choice it holds for the wire rows (log 2), and for a port with no
complete operation, where the spec's engine is stuck and the model's step answers the unchanged state (log 4). -/
def Obligations.EveryOperationCompletes : Prop :=
  (∀ (s : State) (i : Instr), s.Inv → ∃ t, exec i s = .next t) ∧
  ∀ s : State, s.Inv → s.PortInDuty → ∃ t, step s = .next t ∧ t.PortInDuty

/-- OUT is append-only: no step removes or rewrites an event (R19). -/
def Obligations.OutIsAppendOnly : Prop :=
  ∀ s t : State, step s = .next t → ∃ events, t.out = s.out ++ events

/-- Neither an instruction nor a step changes RX_CAP (R25), and no instruction changes the host port. Both are fields of the
model's own (log 1, log 3). -/
def Obligations.CapacityAndPortUnchanged : Prop :=
  (∀ (s t : State) (i : Instr), exec i s = .next t → t.rxCap = s.rxCap ∧ t.port = s.port) ∧
  ∀ s t : State, step s = .next t → t.rxCap = s.rxCap

/-- What each operation emits (R45), while FAULT is clear; a faulting operation emits nothing. -/
def Obligations.EventsOfEachOperation : Prop :=
  (∀ (s t : State) (d : List Byte), s.fault.valid = false → exec (.crc16 d) s = .next t →
    ∃ v, t.out = s.out ++ [.crcOut v]) ∧
  (∀ (s t : State) (i : Instr), s.fault.valid = false →
    ((∃ d, i = .appendCrc d) ∨ (∃ q se ta an sc, i = .buildInventory q se ta an sc) ∨ i = .buildStop ∨
      ∃ p, i = .buildSetPower p) →
    exec i s = .next t → ∃ b, t.out = s.out ++ [.bytesOut b]) ∧
  (∀ (s t : State) (f : List Byte), s.fault.valid = false → exec (.verifyCrc f) s = .next t →
    ∃ b, t.out = s.out ++ [.validOut b]) ∧
  (∀ (s t : State) (i : Instr), ((∃ d, i = .rxPush d) ∨ ∃ r d, i = .reset r d) → exec i s = .next t → t.out = s.out) ∧
  (∀ s t : State, s.fault.valid = false → exec .decode s = .next t →
    ∃ (frames : List (List Byte)) (c : Nat), t.out = s.out ++ frames.map .frameOut ++ [.consumedOut c]) ∧
  (∀ s t : State, s.fault.valid = false → exec .process s = .next t →
    ∃ (frames : List (List Byte)) (c : Nat),
      t.out = s.out ++ frames.flatMap (fun f => .frameOut f :: (tagRecords f).map (fun r => .tagOut r.1 r.2)) ++
        [.consumedOut c]) ∧
  (∀ (s t : State) (f : List Byte), s.fault.valid = false → exec (.tagDecode f) s = .next t →
    ∃ tags : List (List Byte × Int), t.out = s.out ++ tags.map (fun r => .tagOut r.1 r.2)) ∧
  ∀ (s t : State) (op : Transaction) (rest : List Transaction), s.port = op :: rest →
    op.data.length = op.cw.toNat % 2 ^ 16 → (check op.cw s).isSome = true → step s = .next t → t.out = s.out

/-! ### Frames -/

/-- The instructions that only emit leave RXBUF, RXLEN, FAULT, RX_CAP and the port alone: every byte reads as before (the
three wire command rows by the model's choice, log 2). -/
def Obligations.EmittingInstructionsFrame : Prop :=
  ∀ (s t : State) (i : Instr),
    ((∃ d, i = .crc16 d) ∨ (∃ d, i = .appendCrc d) ∨ (∃ f, i = .verifyCrc f) ∨
      (∃ q se ta an sc, i = .buildInventory q se ta an sc) ∨ i = .buildStop ∨ (∃ p, i = .buildSetPower p) ∨
      (∃ f, i = .tagDecode f) ∨ (∃ q se ta an sc, i = .wireInventory q se ta an sc) ∨ i = .wireStopInventory ∨
      ∃ p, i = .wireSetPower p) →
    exec i s = .next t →
      t.rxLen = s.rxLen ∧ t.fault = s.fault ∧ t.rxCap = s.rxCap ∧ t.port = s.port ∧
      (∀ a, Memory.get t.rxbuf a = Memory.get s.rxbuf a) ∧ ∃ events, t.out = s.out ++ events

/-- RX_PUSH stores to the addresses RXLEN .. RXLEN+N-1 alone: every other byte of RXBUF reads as before; OUT, RX_CAP and the
port are unchanged, and FAULT too unless the push overflows a clear engine. -/
def Obligations.RxPushFrame : Prop :=
  ∀ (s t : State) (d : List Byte), s.rxbuf.wf → exec (.rxPush d) s = .next t →
    t.out = s.out ∧ t.rxCap = s.rxCap ∧ t.port = s.port ∧
    (∀ a, ¬ (s.rxLen.toNat ≤ a ∧ a < s.rxLen.toNat + d.length) → Memory.get t.rxbuf a = Memory.get s.rxbuf a) ∧
    (t.fault = s.fault ∨ (s.fault.valid = false ∧ s.rxCap < s.rxLen.toNat + d.length ∧ t.rxbuf = s.rxbuf ∧
      t.rxLen = s.rxLen))

/-- DECODE and PROCESS leave FAULT, RX_CAP and the port alone. Their compaction stores the bytes at RXLEN-after and below
from the bytes `RXLEN-before - RXLEN-after` further on, and no byte beyond holds a value. -/
def Obligations.DecodePassFrame : Prop :=
  ∀ (s t : State) (i : Instr), s.Inv → (i = .decode ∨ i = .process) → exec i s = .next t →
    t.fault = s.fault ∧ t.rxCap = s.rxCap ∧ t.port = s.port ∧ t.rxLen.toNat ≤ s.rxLen.toNat ∧
    ∀ a, Memory.get t.rxbuf a =
      if a < t.rxLen.toNat then Memory.get s.rxbuf (s.rxLen.toNat - t.rxLen.toNat + a) else none

/-! ### The CRC function -/

/-- `crc_step` (R60), over natural numbers: exclusive-or the byte into the low bits, then eight times halve, and
exclusive-or 0x8408 where the bit shifted out was 1. -/
def Obligations.CrcStepRule : Prop :=
  ∀ (crc : Half) (b : Byte),
    (crcStep crc b).toNat =
      (fun n : Nat => if n % 2 = 1 then (n / 2) ^^^ 0x8408 else n / 2)^[8] (crc.toNat ^^^ b.toNat)

/-- `crc16` (R61): the register starts at 0xFFFF, takes the bytes in order, and is not changed at the end. -/
def Obligations.CrcRunsOverBytes : Prop :=
  crc16 [] = 0xFFFF ∧ ∀ (s : List Byte) (b : Byte), crc16 (s ++ [b]) = crcStep (crc16 s) b

/-- The check value (R68): the CRC of the nine bytes "123456789". -/
def Obligations.CrcCheckValue : Prop :=
  crc16 [0x31, 0x32, 0x33, 0x34, 0x35, 0x36, 0x37, 0x38, 0x39] = 0x6F91

/-- `crcValid` (R64): exactly the sequences that are a covered region of `f[0] - 1` bytes, then the region's CRC low byte
first, then bytes that do not matter. -/
def Obligations.CrcValidRule : Prop :=
  ∀ f : List Byte, crcValid f = true ↔
    ∃ (region : List Byte) (lo hi : Byte) (ignored : List Byte),
      f = region ++ lo :: hi :: ignored ∧ region.length + 1 = (byteAt f 0).toNat ∧
      lo.toNat + 256 * hi.toNat = (crc16 region).toNat

/-- The residue (R66): a sequence followed by its CRC, low byte first, has CRC 0. -/
def Obligations.CrcResidueIsZero : Prop :=
  ∀ s : List Byte,
    crc16 (s ++ [BitVec.ofNat 8 ((crc16 s).toNat % 256), BitVec.ofNat 8 ((crc16 s).toNat / 256)]) = 0x0000

/-- The round trip (R67): a sequence whose first byte is its own length byte is valid once its CRC is appended; a sequence
whose first byte is not need not be. -/
def Obligations.CrcRoundTrip : Prop :=
  (∀ b : List Byte, 1 ≤ b.length → b.length ≤ 254 → (byteAt b 0).toNat = b.length + 1 →
    crcValid (b ++ [BitVec.ofNat 8 ((crc16 b).toNat % 256), BitVec.ofNat 8 ((crc16 b).toNat / 256)]) = true) ∧
  crcValid (withCrc [0x00, 0x00]) = false

/-- Sensitivity (R69): a single-bit flip in bytes 1 .. L of a valid frame makes crcValid false; for the frame F1 so does
every single-bit flip, the length byte's included. -/
def Obligations.SingleBitFlipIsDetected : Prop :=
  (∀ (f : List Byte) (k bit : Nat), crcValid f = true → f.length = (byteAt f 0).toNat + 1 → 1 ≤ k →
    k ≤ (byteAt f 0).toNat → bit < 8 → crcValid (f.set k (byteAt f k ^^^ BitVec.twoPow 8 bit)) = false) ∧
  ∀ k < 22, ∀ bit < 8,
    crcValid (List.set
      [0x15, 0x00, 0x01, 0x01, 0x01, 0x30, 0x00, 0xE2, 0x00, 0x00, 0x17, 0x22, 0x0B, 0x01, 0x23, 0x45, 0x67, 0x89, 0xAB,
        0xCE, 0x87, 0xBE] k
      (byteAt [0x15, 0x00, 0x01, 0x01, 0x01, 0x30, 0x00, 0xE2, 0x00, 0x00, 0x17, 0x22, 0x0B, 0x01, 0x23, 0x45, 0x67, 0x89,
        0xAB, 0xCE, 0x87, 0xBE] k ^^^ BitVec.twoPow 8 bit)) = false

/-! ### CRC16, APPEND_CRC, VERIFY_CRC -/

/-- CRC16 (R62) completes with FAULT clear, with the one event CrcOut; the corner cases of R62. -/
def Obligations.Crc16Completes : Prop :=
  (∀ (s : State) (d : List Byte), s.fault.valid = false →
    exec (.crc16 d) s = .next { s with out := s.out ++ [.crcOut (crc16 d)] }) ∧
  crc16 [] = 0xFFFF ∧ crc16 [0x00] = 0x0F87 ∧ crc16 [0xFF] = 0x00FF ∧ crc16 [0x01] = 0x1E0E ∧
  crc16 [0xFF, 0xFF] = 0x0000 ∧ crc16 [0x09, 0xFF, 0x01, 0x04, 0x00, 0x00, 0x80, 0x0A] = 0x5487

/-- APPEND_CRC (R63) completes with FAULT clear, with the operand bytes followed by their CRC, low byte first. -/
def Obligations.AppendCrcCompletes : Prop :=
  ∀ (s : State) (d : List Byte), s.fault.valid = false →
    exec (.appendCrc d) s = .next { s with out := s.out ++ [.bytesOut
      (d ++ [BitVec.ofNat 8 ((crc16 d).toNat % 256), BitVec.ofNat 8 ((crc16 d).toNat / 256)])] }

/-- VERIFY_CRC (R65) completes with FAULT clear, with the Boolean of R64; a frame with length byte 0 or 1 and an empty one
are never valid, and bytes after f[L] are ignored. -/
def Obligations.VerifyCrcCompletes : Prop :=
  (∀ (s : State) (f : List Byte), s.fault.valid = false →
    exec (.verifyCrc f) s = .next { s with out := s.out ++ [.validOut (crcValid f)] }) ∧
  (∀ f : List Byte, (byteAt f 0).toNat ≤ 1 → crcValid f = false) ∧
  (∀ f : List Byte, f.length < (byteAt f 0).toNat + 1 → crcValid f = false) ∧
  ∀ f extra : List Byte, f.length = (byteAt f 0).toNat + 1 → crcValid (f ++ extra) = crcValid f

/-! ### The command encoder -/

/-- BUILD_INVENTORY (R71, R50) completes with FAULT clear, with the ten bytes of the frame, whatever the operands. -/
def Obligations.BuildInventoryCompletes : Prop :=
  ∀ (s : State) (q session target antenna scantime : Byte), s.fault.valid = false →
    exec (.buildInventory q session target antenna scantime) s = .next { s with out := s.out ++ [.bytesOut
      [0x09, 0xFF, 0x01, q, session, target, antenna, scantime,
        BitVec.ofNat 8 ((crc16 [0x09, 0xFF, 0x01, q, session, target, antenna, scantime]).toNat % 256),
        BitVec.ofNat 8 ((crc16 [0x09, 0xFF, 0x01, q, session, target, antenna, scantime]).toNat / 256)]] }

/-- BUILD_STOP (R72) completes with FAULT clear, always with 04 FF 93 80 03. -/
def Obligations.BuildStopCompletes : Prop :=
  ∀ s : State, s.fault.valid = false →
    exec .buildStop s = .next { s with out := s.out ++ [.bytesOut [0x04, 0xFF, 0x93, 0x80, 0x03]] }

/-- BUILD_SET_POWER (R73, R52) completes with FAULT clear, with the six bytes of the frame; no power is refused. -/
def Obligations.BuildSetPowerCompletes : Prop :=
  ∀ (s : State) (power : Byte), s.fault.valid = false →
    exec (.buildSetPower power) s = .next { s with out := s.out ++ [.bytesOut
      [0x05, 0xFF, 0x2F, power, BitVec.ofNat 8 ((crc16 [0x05, 0xFF, 0x2F, power]).toNat % 256),
        BitVec.ofNat 8 ((crc16 [0x05, 0xFF, 0x2F, power]).toNat / 256)]] }

/-- The wire rows of the three command frames (R49 to R52): with FAULT clear the engine emits the frame, byte for byte what
the BUILD_ operation emits. THE MODEL'S CHOICE of a meaning for rows that are not executed (log 2). -/
def Obligations.WireCommandFramesAreEmitted : Prop :=
  ∀ s : State, s.fault.valid = false →
    (∀ q session target antenna scantime : Byte,
      exec (.wireInventory q session target antenna scantime) s = .next { s with out := s.out ++ [.bytesOut
        [0x09, 0xFF, 0x01, q, session, target, antenna, scantime,
          BitVec.ofNat 8 ((crc16 [0x09, 0xFF, 0x01, q, session, target, antenna, scantime]).toNat % 256),
          BitVec.ofNat 8 ((crc16 [0x09, 0xFF, 0x01, q, session, target, antenna, scantime]).toNat / 256)]] }) ∧
    exec .wireStopInventory s = .next { s with out := s.out ++ [.bytesOut [0x04, 0xFF, 0x93, 0x80, 0x03]] } ∧
    ∀ power : Byte, exec (.wireSetPower power) s = .next { s with out := s.out ++ [.bytesOut
      [0x05, 0xFF, 0x2F, power, BitVec.ofNat 8 ((crc16 [0x05, 0xFF, 0x2F, power]).toNat % 256),
        BitVec.ofNat 8 ((crc16 [0x05, 0xFF, 0x2F, power]).toNat / 256)]] }

/-- The template (R70): the length byte |P| + 4, the address 0xFF, the opcode, the payload and the CRC, low byte first. The
frame passes crcValid (R67), and the decode pass (R78 to R82) finds exactly it where its length byte is in range. -/
def Obligations.BuiltFramesAreValid : Prop :=
  ∀ (opcode : Byte) (payload : List Byte), payload.length ≤ 251 →
    (∃ h : List Byte, h = BitVec.ofNat 8 (payload.length + 4) :: 0xFF :: opcode :: payload ∧
      buildFrame opcode payload =
        h ++ [BitVec.ofNat 8 ((crc16 h).toNat % 256), BitVec.ofNat 8 ((crc16 h).toNat / 256)]) ∧
    crcValid (buildFrame opcode payload) = true ∧
    (payload.length ≤ 246 → decodeScan (buildFrame opcode payload) = (payload.length + 5, [buildFrame opcode payload]))

/-! ### The frame decoder -/

/-- RX_PUSH (R77) completes in a legal state with FAULT clear and room for the bytes: they are appended to the stream, RXLEN
grows by N, nothing is emitted and nothing else changes. -/
def Obligations.RxPushCompletes : Prop :=
  ∀ (s : State) (bs d : List Byte), s.Inv → s.fault.valid = false → received s = .ok bs →
    bs.length + d.length ≤ s.rxCap →
    ∃ t, exec (.rxPush d) s = .next t ∧ received t = .ok (bs ++ d) ∧ t.rxLen.toNat = bs.length + d.length ∧
      t.out = s.out ∧ t.fault = s.fault ∧ t.rxCap = s.rxCap ∧ t.port = s.port

/-- RX_PUSH past RX_CAP (R44, R77, R110): RxOverflow with the push's command word, and no byte is written. -/
def Obligations.RxPushOverflowWritesNothing : Prop :=
  ∀ (s : State) (d : List Byte), s.fault.valid = false → d.length ≤ 65535 → s.rxCap < s.rxLen.toNat + d.length →
    exec (.rxPush d) s = .next { s with fault := ⟨true, 4, BitVec.ofNat 32 (0x70000000 + d.length)⟩ }

/-- The turns of the decode pass: step 1 (R79), step 2 (R80), step 3 (R81) and step 4 (R82), each over the bytes that
remain. -/
def Obligations.DecodePassSteps : Prop :=
  (∀ buf : List Byte, buf.length < 5 → decodeScan buf = (0, [])) ∧
  (∀ buf : List Byte, 5 ≤ buf.length → (byteAt buf 0).toNat < 4 ∨ 250 < (byteAt buf 0).toNat →
    decodeScan buf = (1 + (decodeScan (buf.drop 1)).1, (decodeScan (buf.drop 1)).2)) ∧
  (∀ buf : List Byte, 5 ≤ buf.length → 4 ≤ (byteAt buf 0).toNat → (byteAt buf 0).toNat ≤ 250 →
    buf.length < (byteAt buf 0).toNat + 1 → decodeScan buf = (0, [])) ∧
  (∀ cand rest : List Byte, 4 ≤ (byteAt cand 0).toNat → (byteAt cand 0).toNat ≤ 250 →
    cand.length = (byteAt cand 0).toNat + 1 → crcValid cand = true →
    decodeScan (cand ++ rest) = (cand.length + (decodeScan rest).1, cand :: (decodeScan rest).2)) ∧
  ∀ cand rest : List Byte, 4 ≤ (byteAt cand 0).toNat → (byteAt cand 0).toNat ≤ 250 →
    cand.length = (byteAt cand 0).toNat + 1 → crcValid cand = false →
    decodeScan (cand ++ rest) = (1 + (decodeScan ((cand ++ rest).drop 1)).1, (decodeScan ((cand ++ rest).drop 1)).2)

/-- The bytes a pass consumes are its frames, whole and in order, each behind a gap of skipped bytes, and a last gap: every
frame is a contiguous run of the buffer, no two overlap, and each is valid (R78, R82, R87). -/
def Obligations.FramesComeFromConsumedBytes : Prop :=
  ∀ buf : List Byte, (decodeScan buf).1 ≤ buf.length ∧
    (∃ (gaps : List (List Byte)) (last : List Byte), gaps.length = (decodeScan buf).2.length ∧
      buf.take (decodeScan buf).1 =
        (List.zipWith (fun gap frame => gap ++ frame) gaps (decodeScan buf).2).flatten ++ last) ∧
    ∀ f ∈ (decodeScan buf).2, validFrame f

/-- DECODE (R84, R83) completes in a legal state with FAULT clear: a FrameOut for each frame, then ConsumedOut, and the
unconsumed bytes at the front of RXBUF. -/
def Obligations.DecodeCompletes : Prop :=
  ∀ (s : State) (bs : List Byte), s.Inv → s.fault.valid = false → received s = .ok bs →
    ∃ t, exec .decode s = .next t ∧
      t.out = s.out ++ (decodeScan bs).2.map .frameOut ++ [.consumedOut (decodeScan bs).1] ∧
      received t = .ok (bs.drop (decodeScan bs).1) ∧ t.rxLen.toNat = bs.length - (decodeScan bs).1 ∧
      t.fault = s.fault ∧ t.rxCap = s.rxCap ∧ t.port = s.port

/-- PROCESS (R85, R83) completes in a legal state with FAULT clear: as DECODE, each FrameOut followed by the TagOut events
of that frame; the buffer is left as DECODE leaves it. -/
def Obligations.ProcessCompletes : Prop :=
  ∀ (s : State) (bs : List Byte), s.Inv → s.fault.valid = false → received s = .ok bs →
    ∃ t u, exec .process s = .next t ∧ exec .decode s = .next u ∧
      t.out = s.out ++
        (decodeScan bs).2.flatMap (fun f => .frameOut f :: (tagRecords f).map (fun r => .tagOut r.1 r.2)) ++
        [.consumedOut (decodeScan bs).1] ∧
      received t = .ok (bs.drop (decodeScan bs).1) ∧ t.rxbuf = u.rxbuf ∧ t.rxLen = u.rxLen ∧
      t.fault = s.fault ∧ t.rxCap = s.rxCap ∧ t.port = s.port

/-- What DECODE and PROCESS leave (R88): exactly one of fewer than 5 bytes, or at least 5 bytes that are one partial
candidate; at most 250 bytes either way, so that at least RX_CAP - 250 and at least one byte are free. -/
def Obligations.RetainedAfterDecode : Prop :=
  ∀ (s t : State) (i : Instr), s.Inv → s.fault.valid = false → (i = .decode ∨ i = .process) → exec i s = .next t →
    ((t.rxLen.toNat < 5 ∧
        ¬ (5 ≤ t.rxLen.toNat ∧ ∃ b, Memory.get t.rxbuf 0 = some b ∧ 4 ≤ b.toNat ∧ b.toNat ≤ 250 ∧
          t.rxLen.toNat < b.toNat + 1)) ∨
      (¬ t.rxLen.toNat < 5 ∧ 5 ≤ t.rxLen.toNat ∧ ∃ b, Memory.get t.rxbuf 0 = some b ∧ 4 ≤ b.toNat ∧ b.toNat ≤ 250 ∧
        t.rxLen.toNat < b.toNat + 1)) ∧
    t.rxLen.toNat ≤ 250 ∧ t.rxCap - 250 ≤ t.rxCap - t.rxLen.toNat ∧ t.rxLen.toNat + 1 ≤ t.rxCap

/-- Split reads (R89): a valid frame pushed in two pieces, with a DECODE after each, is decoded once, whole. -/
def Obligations.SplitReads : Prop :=
  ∀ (s : State) (v : List Byte) (k : Nat), s.Inv → s.fault.valid = false → s.rxLen = 0 → validFrame v → 1 ≤ k →
    k < v.length →
    s.port = [⟨BitVec.ofNat 32 (0x70000000 + k), v.take k⟩, ⟨0x80000000, []⟩,
      ⟨BitVec.ofNat 32 (0x70000000 + (v.length - k)), v.drop k⟩, ⟨0x80000000, []⟩] →
    ∃ t u, Host.Core.run Sys2Proof.core 2 s = .next t ∧ t.out = s.out ++ [.consumedOut 0] ∧ t.rxLen.toNat = k ∧
      Host.Core.run Sys2Proof.core 4 s = .next u ∧
      u.out = s.out ++ [.consumedOut 0, .frameOut v, .consumedOut v.length] ∧ u.rxLen = 0

/-- Resynchronization (R90): behind bytes of which no candidate is valid and every in-range candidate fits, the frame is
found, no frame comes from those bytes, and the pass goes on behind it; without the second condition it need not be. -/
def Obligations.Resynchronization : Prop :=
  (∀ g v h : List Byte, validFrame v →
    (∀ j < g.length, 4 ≤ (byteAt (g ++ v ++ h) j).toNat → (byteAt (g ++ v ++ h) j).toNat ≤ 250 →
      j + (byteAt (g ++ v ++ h) j).toNat + 1 ≤ (g ++ v ++ h).length ∧
      crcValid (slice (g ++ v ++ h) j (j + (byteAt (g ++ v ++ h) j).toNat + 1)) = false) →
    decodeScan (g ++ v ++ h) = (g.length + v.length + (decodeScan h).1, v :: (decodeScan h).2)) ∧
  decodeScan (0xF0 :: [0x15, 0x00, 0x01, 0x01, 0x01, 0x30, 0x00, 0xE2, 0x00, 0x00, 0x17, 0x22, 0x0B, 0x01, 0x23, 0x45,
    0x67, 0x89, 0xAB, 0xCE, 0x87, 0xBE]) = (0, [])

/-- The host may split the stream anywhere (R129): pushed in pieces of at most RX_CAP - 250 bytes with a DECODE after each,
it never faults (R127), and the frames emitted and the bytes retained are those of one pass over the whole stream. -/
def Obligations.StreamMayBeSplitAnywhere : Prop :=
  ∀ (s : State) (pieces : List (List Byte)), s.Inv → s.fault.valid = false → s.rxLen = 0 →
    (∀ p ∈ pieces, p.length ≤ s.rxCap - 250) → s.port = pushAndDecode pieces →
    ∃ t, Host.Core.run Sys2Proof.core (2 * pieces.length) s = .next t ∧ t.fault.valid = false ∧ t.port = [] ∧
      t.out.filterMap Event.frame? = s.out.filterMap Event.frame? ++ (decodeScan pieces.flatten).2 ∧
      received t = .ok (pieces.flatten.drop (decodeScan pieces.flatten).1)

/-- The stall bound (R126), for a pass over the stream since the last RESET: a valid frame at offset `before.length`, with
no valid candidate that starts before it and overlaps it, is found at that offset once that offset plus 250 bytes are there.
The frames before it are contiguous runs of `before`, those behind it are those of a pass over `after`, and the bytes
consumed are `before`, `v` and what that pass consumes. -/
def Obligations.StallIsBounded : Prop :=
  ∀ before v after : List Byte, validFrame v → before.length + 250 ≤ (before ++ v ++ after).length →
    (∀ j < before.length, 4 ≤ (byteAt (before ++ v ++ after) j).toNat → (byteAt (before ++ v ++ after) j).toNat ≤ 250 →
      before.length < j + (byteAt (before ++ v ++ after) j).toNat + 1 →
      crcValid (slice (before ++ v ++ after) j (j + (byteAt (before ++ v ++ after) j).toNat + 1)) = false) →
    ∃ earlier : List (List Byte), (∀ f ∈ earlier, f <:+: before) ∧
      decodeScan (before ++ v ++ after) =
        (before.length + v.length + (decodeScan after).1, earlier ++ v :: (decodeScan after).2)

/-- Overflow avoidance (R127): after any DECODE or PROCESS a push of at most RX_CAP - 250 bytes does not fault. -/
def Obligations.PushAfterDecodeNeverOverflows : Prop :=
  ∀ (s t : State) (i : Instr) (d : List Byte), s.Inv → s.fault.valid = false → (i = .decode ∨ i = .process) →
    exec i s = .next t → d.length ≤ t.rxCap - 250 →
    ∃ u, exec (.rxPush d) t = .next u ∧ u.fault.valid = false ∧ u.rxLen.toNat = t.rxLen.toNat + d.length

/-! ### The tag record decoder -/

/-- TAG_DECODE (R98) completes with FAULT clear: one TagOut per record, in order. -/
def Obligations.TagDecodeCompletes : Prop :=
  ∀ (s : State) (f : List Byte), s.fault.valid = false →
    exec (.tagDecode f) s =
      .next { s with out := s.out ++ (tagRecords f).map (fun r => .tagOut r.1 r.2) }

/-- The gate (R93): records come only from a frame with opcode 0x01, status 0x01 or 0x02 and a length byte of at least 10;
no record fits below 11, so the length condition never changes the result on its own. -/
def Obligations.TagGate : Prop :=
  ∀ f : List Byte, tagRecords f ≠ [] →
    byteAt f 2 = 0x01 ∧ (byteAt f 3 = 0x01 ∨ byteAt f 3 = 0x02) ∧ 10 ≤ (byteAt f 0).toNat ∧ 11 ≤ (byteAt f 0).toNat

/-- `epcLen` (R95): twice the top five bits of PC, or 12 where they are 0; bits 10:0 do not matter (R101), and the result is
an even number from 2 to 62 (R100). -/
def Obligations.EpcLengthFromPc : Prop :=
  (∀ pc : Half, epcLen pc = if pc.toNat / 2 ^ 11 = 0 then 12 else 2 * (pc.toNat / 2 ^ 11)) ∧
  (∀ pc : Half, 2 ≤ epcLen pc ∧ epcLen pc ≤ 62 ∧ epcLen pc % 2 = 0) ∧
  ∀ p q : Half, p.toNat / 2 ^ 11 = q.toNat / 2 ^ 11 → epcLen p = epcLen q

/-- The RSSI (R97): two's complement of the byte, -128..127. -/
def Obligations.RssiIsTwosComplement : Prop :=
  ∀ b : Byte, sext8 b = b.toInt ∧ -128 ≤ sext8 b ∧ sext8 b ≤ 127

/-- The records of a frame decode to themselves (R55, R56, R92, R95 to R97, R99): a response frame with status 0x01 or 0x02
whose body is a count byte, well-formed records and a tail gives exactly those records, if the count is their number, or if
it is larger and the tail holds no further record. -/
def Obligations.TagRecordsDecodeTheirEncoding : Prop :=
  ∀ (address status num : Byte) (records : List WireRecord) (tail : List Byte),
    (status = 0x01 ∨ status = 0x02) → (∀ r ∈ records, r.epc.length = epcLen r.pc) →
    (num.toNat = records.length ∨
      (records.length < num.toNat ∧
        (tail.length < 2 ∨ tail.length < 2 + epcLen (bigEndian (byteAt tail 0) (byteAt tail 1)) + 1))) →
    (num :: (records.flatMap WireRecord.bytes ++ tail)).length + 5 ≤ 255 →
    tagRecords (responseFrame address status (num :: (records.flatMap WireRecord.bytes ++ tail))) =
      records.map (fun r => (r.epc, sext8 r.rssi))

/-- What tagRecords gives (R99, R102): at most f[4] records; each EPC an even number of bytes from 2 to 62 that stand
together in f[5 : L-1]; each RSSI in -128..127. -/
def Obligations.TagRecordBounds : Prop :=
  ∀ f : List Byte, (tagRecords f).length ≤ (byteAt f 4).toNat ∧
    ∀ r ∈ tagRecords f, 2 ≤ r.1.length ∧ r.1.length ≤ 62 ∧ r.1.length % 2 = 0 ∧
      r.1 <:+: slice f 5 ((byteAt f 0).toNat - 1) ∧ -128 ≤ r.2 ∧ r.2 ≤ 127

/-- Incomplete and over-long operands (R103): fewer than 5 bytes or fewer than f[0] + 1 give no records; neither the CRC
trailer nor the bytes after it matter. -/
def Obligations.TagDecodeIgnoresTrailerAndTail : Prop :=
  (∀ f : List Byte, f.length < 5 → tagRecords f = []) ∧
  (∀ f : List Byte, f.length < (byteAt f 0).toNat + 1 → tagRecords f = []) ∧
  ∀ f g : List Byte, (byteAt f 0).toNat + 1 ≤ f.length → (byteAt f 0).toNat + 1 ≤ g.length →
    (∀ k, k < 5 ∨ k < (byteAt f 0).toNat - 1 → byteAt f k = byteAt g k) → tagRecords f = tagRecords g

/-- The wire row of an inventory response (R53 to R55), with FAULT clear. In a legal state with room for the frame the
engine receives the frame's bytes as RX_PUSH does and decodes them as PROCESS does; behind an empty buffer that emits the
frame, its TagOut events and ConsumedOut, and leaves the buffer empty. Where the frame does not fit, RxOverflow is raised
and nothing else changes. A faulted engine ignores this row and the three wire command rows. THE MODEL'S CHOICE of a
meaning for rows that are not executed (log 2): this one is FEED of the frame (R59). -/
def Obligations.WireInventoryResponseIsDecoded : Prop :=
  (∀ (s : State) (bs : List Byte) (address status : Byte) (body : List Byte), s.Inv → s.fault.valid = false →
    received s = .ok bs → body.length + 5 ≤ 250 → bs.length + (body.length + 6) ≤ s.rxCap →
    ∃ u t, exec (.rxPush (responseFrame address status body)) s = .next u ∧ exec .process u = .next t ∧
      exec (.wireInventoryResponse address status body) s = .next t ∧
      t.fault = s.fault ∧ t.rxCap = s.rxCap ∧ t.port = s.port ∧
      (bs = [] →
        t.out = s.out ++ .frameOut (responseFrame address status body) ::
          (tagRecords (responseFrame address status body)).map (fun r => .tagOut r.1 r.2) ++
          [.consumedOut (body.length + 6)] ∧
        t.rxLen = 0 ∧ t.rxbuf = [])) ∧
  (∀ (s : State) (address status : Byte) (body : List Byte), s.fault.valid = false →
    body.length + 5 ≤ 250 → s.rxCap < s.rxLen.toNat + (body.length + 6) →
    exec (.wireInventoryResponse address status body) s =
      .next { s with fault := ⟨true, 4, BitVec.ofNat 32 (0x70000000 + (body.length + 6))⟩ }) ∧
  ∀ (s : State) (i : Instr), s.fault.valid = true →
    ((∃ q se ta an sc, i = .wireInventory q se ta an sc) ∨ i = .wireStopInventory ∨ (∃ p, i = .wireSetPower p) ∨
      ∃ a st b, i = .wireInventoryResponse a st b) →
    exec i s = .next s

/-! ### RESET and the assembler -/

/-- RESET (R123): from every state, faulted or not, and whatever CW[27:16] and the operand bytes are, RXLEN is 0, no byte of
RXBUF holds a value, FAULT is (0, 0, 0), and OUT and everything else are unchanged; every command word with OP 0xF is it. -/
def Obligations.ResetClears : Prop :=
  (∀ (s : State) (rsv : BitVec 12) (discarded : List Byte),
    exec (.reset rsv discarded) s = .next { s with rxbuf := [], rxLen := 0, fault := ⟨false, 0, 0⟩ }) ∧
  ∀ (s : State) (t : Transaction) (rest : List Transaction),
    s.port = t :: rest → t.data.length = t.cw.toNat % 2 ^ 16 → t.cw.toNat / 2 ^ 28 = 15 →
    step s = .next { s with port := rest, rxbuf := [], rxLen := 0, fault := ⟨false, 0, 0⟩ }

/-- The assembler (R59): each of the eleven mnemonics of R41, spelt so, is one transaction with CW = (OP << 28) | N, its OP
the number R41 gives it, and its bytes; a signed power is the byte d mod 256; FEED is RX_PUSH followed by PROCESS. -/
def Obligations.AssemblerRules : Prop :=
  (∀ row ∈ [("CRC16", Mnemonic.crc16, 0x1), ("APPEND_CRC", .appendCrc, 0x2), ("VERIFY_CRC", .verifyCrc, 0x3),
      ("BUILD_INVENTORY", .buildInventory, 0x4), ("BUILD_STOP", .buildStop, 0x5),
      ("BUILD_SET_POWER", .buildSetPower, 0x6), ("RX_PUSH", .rxPush, 0x7), ("DECODE", .decode, 0x8),
      ("TAG_DECODE", .tagDecode, 0x9), ("PROCESS", .process, 0xA), ("RESET", .reset, 0xF)],
    mnemonicOf row.1.toList = some row.2.1 ∧
    ∀ bytes : List Byte, bytes.length ≤ 65535 →
      assemble (.op row.2.1 bytes) = some [⟨BitVec.ofNat 32 (row.2.2 * 2 ^ 28 + bytes.length), bytes⟩]) ∧
  (∀ d : Int, -128 ≤ d → d ≤ 127 →
    assemble (.setPower d) = some [⟨0x60000001, [BitVec.ofNat 8 (d % 256).toNat]⟩]) ∧
  (∀ bytes : List Byte, bytes.length ≤ 65535 →
    assemble (.feed bytes) = some [⟨BitVec.ofNat 32 (0x70000000 + bytes.length), bytes⟩, ⟨0xA0000000, []⟩]) ∧
  parseLine "BUILD_SET_POWER -30".toList = some (.setPower (-30)) ∧
  parseLine "FEED 05 00 ; a comment".toList = some (.feed [0x05, 0x00])
end

