-- ==== Sys2Proof/Laws/State.lean ====
section
/-! SUPPORT. One lemma per field per state update, true by unfolding the update once, so that no later proof unfolds a
record update. -/

namespace Sys2Proof.Machine

variable (s : State)

/-! ### emit -/

@[simp] theorem State.emit_rxCap (es : List Event) : (s.emit es).rxCap = s.rxCap := rfl
@[simp] theorem State.emit_rxbuf (es : List Event) : (s.emit es).rxbuf = s.rxbuf := rfl
@[simp] theorem State.emit_rxLen (es : List Event) : (s.emit es).rxLen = s.rxLen := rfl
@[simp] theorem State.emit_fault (es : List Event) : (s.emit es).fault = s.fault := rfl
@[simp] theorem State.emit_out (es : List Event) : (s.emit es).out = s.out ++ es := rfl
@[simp] theorem State.emit_port (es : List Event) : (s.emit es).port = s.port := rfl

/-! ### setRx -/

@[simp] theorem State.setRx_rxCap (m : Memory) (n : Nat) : (s.setRx m n).rxCap = s.rxCap := rfl
@[simp] theorem State.setRx_rxbuf (m : Memory) (n : Nat) : (s.setRx m n).rxbuf = m := rfl
@[simp] theorem State.setRx_rxLen (m : Memory) (n : Nat) : (s.setRx m n).rxLen = BitVec.ofNat 16 n := rfl
@[simp] theorem State.setRx_fault (m : Memory) (n : Nat) : (s.setRx m n).fault = s.fault := rfl
@[simp] theorem State.setRx_out (m : Memory) (n : Nat) : (s.setRx m n).out = s.out := rfl
@[simp] theorem State.setRx_port (m : Memory) (n : Nat) : (s.setRx m n).port = s.port := rfl

/-! ### setFault -/

@[simp] theorem State.setFault_rxCap (f : FaultReg) : (s.setFault f).rxCap = s.rxCap := rfl
@[simp] theorem State.setFault_rxbuf (f : FaultReg) : (s.setFault f).rxbuf = s.rxbuf := rfl
@[simp] theorem State.setFault_rxLen (f : FaultReg) : (s.setFault f).rxLen = s.rxLen := rfl
@[simp] theorem State.setFault_fault (f : FaultReg) : (s.setFault f).fault = f := rfl
@[simp] theorem State.setFault_out (f : FaultReg) : (s.setFault f).out = s.out := rfl
@[simp] theorem State.setFault_port (f : FaultReg) : (s.setFault f).port = s.port := rfl

/-! ### setPort -/

@[simp] theorem State.setPort_rxCap (p : List Transaction) : (s.setPort p).rxCap = s.rxCap := rfl
@[simp] theorem State.setPort_rxbuf (p : List Transaction) : (s.setPort p).rxbuf = s.rxbuf := rfl
@[simp] theorem State.setPort_rxLen (p : List Transaction) : (s.setPort p).rxLen = s.rxLen := rfl
@[simp] theorem State.setPort_fault (p : List Transaction) : (s.setPort p).fault = s.fault := rfl
@[simp] theorem State.setPort_out (p : List Transaction) : (s.setPort p).out = s.out := rfl
@[simp] theorem State.setPort_port (p : List Transaction) : (s.setPort p).port = p := rfl

@[simp] theorem State.emit_nil : s.emit [] = s := by cases s; simp [State.emit]
@[simp] theorem State.emit_emit (x y : List Event) : (s.emit x).emit y = s.emit (x ++ y) := by simp [State.emit]
@[simp] theorem State.setPort_setPort (p q : List Transaction) : (s.setPort p).setPort q = s.setPort q := rfl

/-! ### Reset -/

@[simp] theorem resetEngine_rxCap : (resetEngine s).rxCap = s.rxCap := rfl
@[simp] theorem resetEngine_rxbuf : (resetEngine s).rxbuf = [] := rfl
@[simp] theorem resetEngine_rxLen : (resetEngine s).rxLen = 0 := rfl
@[simp] theorem resetEngine_fault : (resetEngine s).fault = .clear := rfl
@[simp] theorem resetEngine_out : (resetEngine s).out = s.out := rfl
@[simp] theorem resetEngine_port : (resetEngine s).port = s.port := rfl

/-! ### Fault entry -/

/-- Fault entry writes FAULT alone, and only where it was clear (R112, R113). -/
theorem raiseFault_eq (c : Cause) (cw : CommandWord) :
    raiseFault c cw s = if s.fault.valid then s else s.setFault ⟨true, causeCode c, cw⟩ := rfl

theorem raiseFault_of_valid {c : Cause} {cw : CommandWord} (h : s.fault.valid = true) : raiseFault c cw s = s := by
  simp [raiseFault, h]

theorem raiseFault_of_clear {c : Cause} {cw : CommandWord} (h : s.fault.valid = false) :
    raiseFault c cw s = s.setFault ⟨true, causeCode c, cw⟩ := by simp [raiseFault, h]

@[simp] theorem raiseFault_rxCap (c : Cause) (cw : CommandWord) : (raiseFault c cw s).rxCap = s.rxCap := by
  unfold raiseFault; split <;> rfl
@[simp] theorem raiseFault_rxbuf (c : Cause) (cw : CommandWord) : (raiseFault c cw s).rxbuf = s.rxbuf := by
  unfold raiseFault; split <;> rfl
@[simp] theorem raiseFault_rxLen (c : Cause) (cw : CommandWord) : (raiseFault c cw s).rxLen = s.rxLen := by
  unfold raiseFault; split <;> rfl
@[simp] theorem raiseFault_out (c : Cause) (cw : CommandWord) : (raiseFault c cw s).out = s.out := by
  unfold raiseFault; split <;> rfl
@[simp] theorem raiseFault_port (c : Cause) (cw : CommandWord) : (raiseFault c cw s).port = s.port := by
  unfold raiseFault; split <;> rfl

/-! ### The faulted engine -/

theorem unlessFaulted_of_valid {k : Host.Outcome State Fault Refusal} (h : s.fault.valid = true) :
    unlessFaulted s k = .next s := by simp [unlessFaulted, h]

theorem unlessFaulted_of_clear {k : Host.Outcome State Fault Refusal} (h : s.fault.valid = false) :
    unlessFaulted s k = k := by simp [unlessFaulted, h]

end Sys2Proof.Machine
end

