-- ==== Sys2Proof/Laws/Memory.lean ====
section
/-! SUPPORT. The laws of the byte memory: a read after a write, and that every operation keeps the canonical form. -/

namespace Sys2Proof.Machine

/-! ### Reading what was written -/

theorem Memory.get_set (m : Memory) (i j : Nat) (v : Byte) (hm : m.wf) :
    Memory.get (Memory.set m i v) j = if j = i then some v else Memory.get m j := by
  induction m with
  | nil => simp [Memory.set, Memory.get]
  | cons c m ih =>
    obtain ⟨a, b⟩ := c
    obtain ⟨ha, hm⟩ := List.pairwise_cons.1 hm
    simp only [Memory.set]
    split
    · next h => by_cases hj : j = i <;> simp [Memory.get, hj]
    · split
      · next h h' => subst h'; by_cases hj : j = i <;> simp [Memory.get, hj]
      · next h h' =>
        simp only [Memory.get, ih hm]
        by_cases hj : j = a
        · simp [hj]; omega
        · simp [hj]

/-! ### The canonical form -/

theorem Memory.set_addresses {m : Memory} {i : Nat} {v : Byte} {c : Host.Cell} (h : c ∈ Memory.set m i v) :
    c = (i, v) ∨ c ∈ m := by
  induction m with
  | nil => simpa [Memory.set] using h
  | cons x m ih =>
    obtain ⟨a, b⟩ := x
    simp only [Memory.set] at h
    split at h
    · simpa using h
    · split at h
      · rcases List.mem_cons.1 h with h | h
        · exact .inl h
        · exact .inr (List.mem_cons_of_mem _ h)
      · rcases List.mem_cons.1 h with h | h
        · exact .inr (h ▸ List.mem_cons_self)
        · exact (ih h).imp_right (List.mem_cons_of_mem _)

theorem Memory.set_wf {m : Memory} (i : Nat) (v : Byte) (hm : m.wf) : (Memory.set m i v).wf := by
  induction m with
  | nil => simp [Memory.set, Memory.wf]
  | cons x m ih =>
    obtain ⟨a, b⟩ := x
    obtain ⟨ha, hm'⟩ := List.pairwise_cons.1 hm
    simp only [Memory.set]
    split
    · next h =>
      refine List.pairwise_cons.2 ⟨fun c hc => ?_, hm⟩
      rcases List.mem_cons.1 hc with rfl | hc
      · exact h
      · exact lt_trans h (ha c hc)
    · split
      · next h h' => subst h'; exact List.pairwise_cons.2 ⟨ha, hm'⟩
      · next h h' =>
        refine List.pairwise_cons.2 ⟨fun c hc => ?_, ih hm'⟩
        rcases Memory.set_addresses hc with rfl | hc
        · simp only; omega
        · exact ha c hc

theorem Memory.setMany_wf {m : Memory} (i : Nat) (vs : List Byte) (hm : m.wf) : (Memory.setMany m i vs).wf := by
  induction vs generalizing m i with
  | nil => exact hm
  | cons v vs ih => exact ih _ (Memory.set_wf _ _ hm)

theorem Memory.keepBelow_wf {m : Memory} (n : Nat) (hm : m.wf) : (Memory.keepBelow m n).wf :=
  List.Pairwise.filter _ hm

theorem Memory.cells_lower {i : Nat} {bs : List Byte} {c : Host.Cell} (h : c ∈ Memory.cells i bs) : i ≤ c.1 := by
  induction bs generalizing i with
  | nil => simp [Memory.cells] at h
  | cons b bs ih =>
    rcases List.mem_cons.1 h with rfl | h
    · exact le_refl _
    · exact le_trans (Nat.le_succ i) (ih h)

theorem Memory.cells_wf (i : Nat) (bs : List Byte) : (Memory.cells i bs).wf := by
  induction bs generalizing i with
  | nil => exact List.Pairwise.nil
  | cons b bs ih => exact List.pairwise_cons.2 ⟨fun c hc => Memory.cells_lower hc, ih _⟩

/-- The memory of the state at power-on is in canonical form. -/
theorem reset_memory_wf : State.reset.rxbuf.wf := List.Pairwise.nil

/-! ### Many bytes -/

/-- The byte at `j` after `vs` has been stored from `i` on: the stored byte where there is one, else the byte as before. -/
theorem Memory.get_setMany (m : Memory) (i j : Nat) (vs : List Byte) (hm : m.wf) :
    Memory.get (Memory.setMany m i vs) j =
      if i ≤ j ∧ j < i + vs.length then vs[j - i]? else Memory.get m j := by
  induction vs generalizing m i with
  | nil => simp only [Memory.setMany, List.length_nil]; split <;> first | omega | rfl
  | cons v vs ih =>
    simp only [Memory.setMany, ih _ _ (Memory.set_wf _ _ hm), Memory.get_set _ _ _ _ hm, List.length_cons]
    by_cases h1 : i + 1 ≤ j ∧ j < i + 1 + vs.length
    · obtain ⟨k, rfl⟩ := Nat.exists_eq_add_of_le h1.1
      rw [if_pos h1, if_pos (by omega), show i + 1 + k - (i + 1) = k by omega, show i + 1 + k - i = k + 1 by omega,
        List.getElem?_cons_succ]
    · by_cases h2 : j = i
      · subst h2; simp
      · rw [if_neg h1, if_neg h2, if_neg (by omega)]

theorem Memory.get_keepBelow (m : Memory) (n j : Nat) :
    Memory.get (Memory.keepBelow m n) j = if j < n then Memory.get m j else none := by
  induction m with
  | nil => simp [Memory.keepBelow, Memory.get]
  | cons x m ih =>
    obtain ⟨a, b⟩ := x
    simp only [Memory.keepBelow] at ih
    by_cases ha : a < n
    · simp only [Memory.keepBelow, List.filter_cons, ha, decide_true, if_true, Memory.get, ih]
      by_cases hj : j = a
      · simp [hj, ha]
      · simp [hj]
    · simp only [Memory.keepBelow, List.filter_cons, ha, decide_false, Memory.get]
      by_cases hj : j = a
      · subst hj; simpa [ha] using ih
      · simp [hj, ih]

theorem Memory.get_cells (i j : Nat) (bs : List Byte) :
    Memory.get (Memory.cells i bs) j = if i ≤ j then bs[j - i]? else none := by
  induction bs generalizing i with
  | nil => simp [Memory.cells, Memory.get]
  | cons b bs ih =>
    simp only [Memory.cells, Memory.get, ih]
    by_cases h : j = i
    · subst h; simp
    · by_cases h' : i + 1 ≤ j
      · obtain ⟨k, rfl⟩ := Nat.exists_eq_add_of_le h'
        rw [if_neg h, if_pos h', if_pos (by omega), show i + 1 + k - (i + 1) = k by omega,
          show i + 1 + k - i = k + 1 by omega, List.getElem?_cons_succ]
      · rw [if_neg h, if_neg h', if_neg (by omega)]

/-! ### Memories are equal where they read equal -/

theorem Memory.get_eq_none {m : Memory} {i : Nat} (h : ∀ c ∈ m, i < c.1) : Memory.get m i = none := by
  induction m with
  | nil => rfl
  | cons x m ih =>
    obtain ⟨a, b⟩ := x
    have ha : i < a := h (a, b) List.mem_cons_self
    rw [Memory.get, if_neg (by omega), ih (fun c hc => h c (List.mem_cons_of_mem _ hc))]

/-- Two canonical memories that read the same at every address are equal data. -/
theorem Memory.ext {m n : Memory} (hm : m.wf) (hn : n.wf) (h : ∀ i, Memory.get m i = Memory.get n i) : m = n := by
  induction m generalizing n with
  | nil =>
    cases n with
    | nil => rfl
    | cons y n => have := h y.1; simp [Memory.get] at this
  | cons x m ih =>
    cases n with
    | nil => have := h x.1; simp [Memory.get] at this
    | cons y n =>
      obtain ⟨a, b⟩ := x
      obtain ⟨c, d⟩ := y
      obtain ⟨ha, hm'⟩ := List.pairwise_cons.1 hm
      obtain ⟨hc, hn'⟩ := List.pairwise_cons.1 hn
      have hac : a = c := by
        rcases Nat.lt_trichotomy a c with hlt | heq | hlt
        · have e := h a
          rw [Memory.get_eq_none (m := (c, d) :: n)] at e
          · simp [Memory.get] at e
          · intro z hz
            rcases List.mem_cons.1 hz with rfl | hz
            · exact hlt
            · exact lt_trans hlt (hc z hz)
        · exact heq
        · have e := h c
          rw [Memory.get_eq_none (m := (a, b) :: m)] at e
          · simp [Memory.get] at e
          · intro z hz
            rcases List.mem_cons.1 hz with rfl | hz
            · exact hlt
            · exact lt_trans hlt (ha z hz)
      subst hac
      have hbd : b = d := by have e := h a; simpa [Memory.get] using e
      subst hbd
      congr 1
      refine ih hm' hn' fun i => ?_
      by_cases hi : i = a
      · subst hi; rw [Memory.get_eq_none ha, Memory.get_eq_none hc]
      · have e := h i; simpa [Memory.get, hi] using e

end Sys2Proof.Machine
end

