-- ==== Sys2Proof/Laws/Buffer.lean ====
section
/-! SUPPORT. What the operations on RXBUF do in a state whose buffered stream is `bs`: one lemma per operation. -/

namespace Sys2Proof.Machine

/-- RXBUF holds exactly the stream `bs` at its front, and it fits. -/
structure Holds (s : State) (bs : List Byte) : Prop where
  buf : s.rxbuf = Memory.cells 0 bs
  len : s.rxLen.toNat = bs.length
  fits : bs.length ≤ s.rxCap

theorem Memory.cells_fst (i : Nat) (bs : List Byte) :
    (Memory.cells i bs).map Prod.fst = List.range' i bs.length := by
  induction bs generalizing i with
  | nil => rfl
  | cons b bs ih => simp [Memory.cells, ih, List.range'_succ]

theorem Memory.eq_cells_of_fst {m : Memory} {i n : Nat} (h : m.map Prod.fst = List.range' i n) :
    m = Memory.cells i (m.map Prod.snd) ∧ m.length = n := by
  induction m generalizing i n with
  | nil =>
    cases n with
    | zero => exact ⟨rfl, rfl⟩
    | succ n => simp [List.range'_succ] at h
  | cons c m ih =>
    cases n with
    | zero => simp at h
    | succ n =>
      rw [List.range'_succ, List.map_cons, List.cons.injEq] at h
      obtain ⟨h1, h2⟩ := ih h.2
      refine ⟨?_, by simp [h2]⟩
      rw [List.map_cons, Memory.cells, ← h1, ← h.1]

/-- A legal state holds a stream. -/
theorem State.Inv.holds {s : State} (h : s.Inv) : Holds s (s.rxbuf.map Prod.snd) := by
  obtain ⟨-, -, hle, hbuf, -, -⟩ := h
  obtain ⟨h1, h2⟩ := Memory.eq_cells_of_fst (i := 0) (by rw [hbuf, List.range_eq_range'])
  exact ⟨h1, by simp [h2], by simpa [h2] using hle⟩

theorem Holds.fst {s : State} {bs : List Byte} (h : Holds s bs) : s.rxbuf.map Prod.fst = List.range s.rxLen.toNat := by
  rw [h.buf, Memory.cells_fst, h.len, List.range_eq_range']

theorem Holds.readByte {s : State} {bs : List Byte} (h : Holds s bs) {i : Nat} (hi : i < bs.length) :
    readByte s i = .ok bs[i] := by
  have hcap : ¬ s.rxCap ≤ i := by have := h.fits; omega
  simp [Machine.readByte, hcap, h.buf, Memory.get_cells, hi]

theorem Holds.memRead {s : State} {bs : List Byte} (h : Holds s bs) {i n : Nat} (hi : i + n ≤ bs.length) :
    memRead s i n = .ok ((bs.drop i).take n) := by
  induction n generalizing i with
  | zero => simp [Machine.memRead]
  | succ n ih =>
    have hlt : i < bs.length := by omega
    rw [Machine.memRead, h.readByte hlt, ih (i := i + 1) (by omega)]
    simp only
    rw [List.drop_eq_getElem_cons hlt, List.take_succ_cons]

theorem Holds.received {s : State} {bs : List Byte} (h : Holds s bs) : received s = .ok bs := by
  rw [Machine.received, h.len, h.memRead (by omega)]; simp

/-- In a legal state, the stream that `received` answers is the one RXBUF holds. -/
theorem State.Inv.holds_of_received {s : State} (h : s.Inv) {bs : List Byte} (hr : received s = .ok bs) :
    Holds s bs := by
  have h1 := h.holds
  rw [h1.received] at hr
  injection hr with hr
  exact hr ▸ h1

theorem Holds.append {s : State} {bs data : List Byte} (h : Holds s bs) (hfit : bs.length + data.length ≤ s.rxCap) :
    append data s = .ok (s.setRx (Memory.cells 0 (bs ++ data)) (bs.length + data.length)) := by
  have hm : Memory.setMany s.rxbuf bs.length data = Memory.cells 0 (bs ++ data) := by
    refine Memory.ext (Memory.setMany_wf _ _ (h.buf ▸ Memory.cells_wf _ _)) (Memory.cells_wf _ _) fun i => ?_
    rw [Memory.get_setMany _ _ _ _ (h.buf ▸ Memory.cells_wf _ _), h.buf, Memory.get_cells, Memory.get_cells]
    simp only [Nat.zero_le, if_true, Nat.sub_zero]
    split
    · next hi => rw [List.getElem?_append_right hi.1]
    · next hi =>
      rcases Nat.lt_or_ge i bs.length with hlt | hge
      · rw [List.getElem?_append_left hlt]
      · rw [List.getElem?_eq_none hge, List.getElem?_eq_none (by rw [List.length_append]; omega)]
  have hcap : ¬ s.rxCap < bs.length + data.length := by omega
  simp [Machine.append, memWrite, h.len, hcap, hm]

theorem Holds.compact {s : State} {bs : List Byte} (h : Holds s bs) {c : Nat} (hc : c ≤ bs.length) :
    compact c s = .ok (s.setRx (Memory.cells 0 (bs.drop c)) (bs.length - c)) := by
  have hlen : ((bs.drop c).take (bs.length - c)).length = bs.length - c := by simp
  have hm : Memory.keepBelow (Memory.setMany s.rxbuf 0 ((bs.drop c).take (bs.length - c))) (bs.length - c) =
      Memory.cells 0 (bs.drop c) := by
    refine Memory.ext (Memory.keepBelow_wf _ (Memory.setMany_wf _ _ (h.buf ▸ Memory.cells_wf _ _)))
      (Memory.cells_wf _ _) fun i => ?_
    rw [Memory.get_keepBelow, Memory.get_setMany _ _ _ _ (h.buf ▸ Memory.cells_wf _ _), hlen, Memory.get_cells]
    simp only [Nat.zero_le, true_and, Nat.zero_add, if_true, Nat.sub_zero]
    split
    · next hi => rw [List.take_of_length_le (by simp)]
    · next hi => rw [List.getElem?_eq_none (by simp; omega)]
  have hcap : ¬ s.rxCap < bs.length - c := by have := h.fits; omega
  rw [Machine.compact]
  simp only [h.len]
  rw [h.memRead (by omega)]
  simp only [memWrite, hlen, Nat.zero_add, if_neg hcap]
  rw [hm]

/-- The stream after RXBUF and RXLEN have been set together. -/
theorem Holds.setRx (s : State) (bs : List Byte) (hfit : bs.length ≤ s.rxCap) (hcap : s.rxCap ≤ 65535) :
    Holds (s.setRx (Memory.cells 0 bs) bs.length) bs :=
  ⟨rfl, by simp only [State.setRx_rxLen, BitVec.toNat_ofNat]; omega, hfit⟩

theorem Holds.emit {s : State} {bs : List Byte} (h : Holds s bs) (es : List Event) : Holds (s.emit es) bs :=
  ⟨h.buf, h.len, h.fits⟩

theorem Holds.setPort {s : State} {bs : List Byte} (h : Holds s bs) (p : List Transaction) : Holds (s.setPort p) bs :=
  ⟨h.buf, h.len, h.fits⟩

theorem Holds.setFault {s : State} {bs : List Byte} (h : Holds s bs) (f : FaultReg) : Holds (s.setFault f) bs :=
  ⟨h.buf, h.len, h.fits⟩

/-- A legal state is one that holds a stream, within RX_CAP's bounds, with FAULT and OUT legal. -/
theorem State.Inv.of_holds {s : State} {bs : List Byte} (h : Holds s bs) (h1 : config.rxCapMin ≤ s.rxCap)
    (h2 : s.rxCap ≤ config.rxCapMax) (hf : s.fault.legal = true) (ho : s.out.all Event.legal = true) : s.Inv :=
  ⟨h1, h2, by rw [h.len]; exact h.fits, h.fst, hf, ho⟩

end Sys2Proof.Machine
end

