-- ==== Sys2Proof/Laws/Crc.lean ====
section
/-! SUPPORT. The CRC register: it runs over a concatenation piece by piece, it never forgets (each step is one-to-one in the
register and in the byte), and its own low byte shifts it down without feedback. -/

namespace Sys2Proof.Machine

theorem crcRun_append (crc : Half) (s t : List Byte) : crcRun crc (s ++ t) = crcRun (crcRun crc s) t := by
  induction s generalizing crc with
  | nil => rfl
  | cons b s ih => exact ih _

/-- CRC_INIT is all ones and CRC_XOROUT is zero (R7). -/
theorem crc16_eq_run (s : List Byte) : crc16 s = crcRun 0xFFFF s := by
  show crcRun 0xFFFF s ^^^ 0 = _
  exact BitVec.xor_zero

@[simp] theorem withCrc_length (s : List Byte) : (withCrc s).length = s.length + 2 := by simp [withCrc, trailer]

/-! ### Each step is one-to-one -/

/-- Bit 15 of the shifted register is the bit that was shifted out, since CRC_POLY has bit 15 set. -/
theorem crcBit_injective : Function.Injective crcBit := by
  intro x y h
  have hb : ∀ z : Half, (crcBit z).getLsbD 15 = z.getLsbD 0 := by
    intro z
    unfold crcBit
    split
    · next hz => simp [config, hz]
    · next hz => simp at hz; simp [hz]
  have h0 : x.getLsbD 0 = y.getLsbD 0 := by rw [← hb x, ← hb y, h]
  have hs : x >>> 1 = y >>> 1 := by
    unfold crcBit at h
    rw [h0] at h
    split at h
    · exact (BitVec.xor_left_inj _).1 h
    · exact h
  refine BitVec.eq_of_getLsbD_eq fun i hi => ?_
  rcases Nat.eq_zero_or_pos i with rfl | hpos
  · exact h0
  · have := congrArg (fun v : Half => v.getLsbD (i - 1)) hs
    simpa [show 1 + (i - 1) = i by omega] using this

theorem crcBits_injective (n : Nat) : Function.Injective (crcBits n) := by
  induction n with
  | zero => exact fun x y h => h
  | succ n ih => exact fun x y h => crcBit_injective (ih h)

theorem crcStep_injective_register (b : Byte) : Function.Injective (fun crc => crcStep crc b) :=
  fun _ _ h => (BitVec.xor_left_inj _).1 (crcBits_injective 8 h)

theorem crcStep_injective_byte (crc : Half) : Function.Injective (crcStep crc) := by
  intro b c h
  have := (BitVec.xor_right_inj _).1 (crcBits_injective 8 h)
  have h2 := congrArg (BitVec.setWidth 8) this
  simpa using h2

theorem crcRun_injective (s : List Byte) : Function.Injective (fun crc => crcRun crc s) := by
  induction s with
  | nil => exact fun x y h => h
  | cons b s ih => exact fun x y h => crcStep_injective_register b (ih h)

/-! ### The register's own low byte -/

theorem crcBits_of_low_zero (n : Nat) (x : Half) (h : ∀ i < n, x.getLsbD i = false) : crcBits n x = x >>> n := by
  induction n generalizing x with
  | zero => simp [crcBits]
  | succ n ih =>
    have h0 : crcBit x = x >>> 1 := by rw [crcBit, h 0 (by omega)]; rfl
    rw [crcBits, h0, ih]
    · rw [← BitVec.shiftRight_add, Nat.add_comm]
    · intro i hi; simp [h (1 + i) (by omega)]

/-- Feeding the register its own low byte shifts it down by eight. -/
theorem crcStep_loByte (c : Half) : crcStep c (loByte c) = c >>> 8 := by
  rw [crcStep, crcBits_of_low_zero]
  · refine BitVec.eq_of_getLsbD_eq fun i hi => ?_
    simp [loByte, BitVec.getLsbD_setWidth]
  · intro i hi
    have : i < 16 := by omega
    simp [loByte, hi, this]

theorem crcBits_zero (n : Nat) : crcBits n 0 = 0 := by
  rw [crcBits_of_low_zero] <;> simp

/-- The two bytes of a 16-bit value, low first, give it back (R29). -/
theorem littleEndian_bytes (c : Half) : littleEndian (loByte c) (hiByte c) = c := by
  refine BitVec.eq_of_getLsbD_eq fun i hi => ?_
  simp only [littleEndian, loByte, hiByte, BitVec.getLsbD_or, BitVec.getLsbD_setWidth, BitVec.getLsbD_shiftLeft,
    BitVec.getLsbD_extractLsb', hi, decide_true, Bool.true_and, Nat.zero_add]
  rcases Nat.lt_or_ge i 8 with h | h
  · simp [h]
  · simp [show ¬ i < 8 by omega, show i - 8 < 8 by omega, show 8 + (i - 8) = i by omega]
    intro; omega

/-- Two bytes, low first, are the low and the high byte of the 16-bit value they make. -/
theorem littleEndian_injective {a b c d : Byte} (h : littleEndian a b = littleEndian c d) : a = c ∧ b = d := by
  have key : ∀ x y : Byte, loByte (littleEndian x y) = x ∧ hiByte (littleEndian x y) = y := by
    intro x y
    constructor <;> refine BitVec.eq_of_getLsbD_eq fun i hi => ?_
    · simp only [loByte, littleEndian, BitVec.getLsbD_extractLsb', BitVec.getLsbD_or, BitVec.getLsbD_setWidth,
        BitVec.getLsbD_shiftLeft, hi, Nat.zero_add]
      simp [show i < 16 by omega]
    · simp only [hiByte, littleEndian, BitVec.getLsbD_extractLsb', BitVec.getLsbD_or, BitVec.getLsbD_setWidth,
        BitVec.getLsbD_shiftLeft, hi]
      simp [show 8 + i < 16 by omega, show 8 + i - 8 = i by omega]
      intro; omega
  exact ⟨by rw [← (key a b).1, h, (key c d).1], by rw [← (key a b).2, h, (key c d).2]⟩

end Sys2Proof.Machine
end

