-- ==== Sys2Proof/Laws/Scan.lean ====
section
/-! SUPPORT. The decode pass as a recursion on the bytes that remain: `decodeScan_eq` says once what one turn of the pass
does, and `decodeScan_induction` is its induction principle. -/

namespace Sys2Proof.Machine

/-- The pass over the bytes that remain, with a bound on its turns. -/
def scanRest : Nat → List Byte → Nat × List (List Byte)
  | 0, _ => (0, [])
  | fuel + 1, rest =>
    if rest.length < config.minAvail then (0, [])
    else
      let len := (byteAt rest 0).toNat
      if len < config.lenMin ∨ config.lenMax < len then
        (1 + (scanRest fuel (rest.drop 1)).1, (scanRest fuel (rest.drop 1)).2)
      else if rest.length < len + 1 then (0, [])
      else if crcValid (rest.take (len + 1)) then
        (len + 1 + (scanRest fuel (rest.drop (len + 1))).1, rest.take (len + 1) :: (scanRest fuel (rest.drop (len + 1))).2)
      else (1 + (scanRest fuel (rest.drop 1)).1, (scanRest fuel (rest.drop 1)).2)

theorem byteAt_drop (s : List Byte) (i j : Nat) : byteAt (s.drop i) j = byteAt s (i + j) := by
  simp [byteAt, List.getD_eq_getElem?_getD, List.getElem?_drop]

/-- The loop of R78 is the pass over the bytes that remain. -/
theorem decodeLoop_eq_scanRest (buf : List Byte) (fuel i : Nat) (found : List (List Byte)) :
    decodeLoop buf fuel i found =
      (i + (scanRest fuel (buf.drop i)).1, found ++ (scanRest fuel (buf.drop i)).2) := by
  induction fuel generalizing i found with
  | zero => simp [decodeLoop, scanRest]
  | succ fuel ih =>
    simp only [decodeLoop, scanRest, List.length_drop, byteAt_drop, Nat.add_zero, slice, List.drop_drop, ih,
      show i + (byteAt buf i).toNat + 1 - i = (byteAt buf i).toNat + 1 by omega]
    split
    · simp
    · split
      · simp [Nat.add_assoc]
      · split
        · simp
        · split <;> simp [Nat.add_assoc]

/-- Turns beyond the number of bytes that remain change nothing. -/
theorem scanRest_fuel (fuel : Nat) (rest : List Byte) (h : rest.length ≤ fuel) :
    scanRest fuel rest = scanRest rest.length rest := by
  induction fuel using Nat.strong_induction_on generalizing rest with
  | _ fuel ih =>
    cases fuel with
    | zero => rw [Nat.le_zero.1 h]
    | succ fuel =>
      cases rest with
      | nil => simp [scanRest, config]
      | cons b rest =>
        have hl : rest.length ≤ fuel := by simpa using h
        have key : ∀ k, scanRest fuel (rest.drop k) = scanRest rest.length (rest.drop k) := fun k => by
          have h1 : (rest.drop k).length ≤ rest.length := by simp
          rw [ih fuel (by omega) _ (le_trans h1 hl)]
          rcases Nat.lt_or_ge rest.length (fuel + 1) with hlt | hge
          · rw [ih rest.length hlt _ h1]
          · omega
        simp only [scanRest, List.length_cons, List.drop_succ_cons, key]

theorem decodeScan_eq_scanRest (buf : List Byte) : decodeScan buf = scanRest buf.length buf := by
  simp [decodeScan, decodeLoop_eq_scanRest]

/-- One turn of the decode pass (R78): step 1 stops, step 2 skips one byte, step 3 stops, step 4 takes the candidate or
skips one byte. -/
theorem decodeScan_eq (buf : List Byte) :
    decodeScan buf =
      if buf.length < config.minAvail then (0, [])
      else if (byteAt buf 0).toNat < config.lenMin ∨ config.lenMax < (byteAt buf 0).toNat then
        (1 + (decodeScan (buf.drop 1)).1, (decodeScan (buf.drop 1)).2)
      else if buf.length < (byteAt buf 0).toNat + 1 then (0, [])
      else if crcValid (buf.take ((byteAt buf 0).toNat + 1)) then
        ((byteAt buf 0).toNat + 1 + (decodeScan (buf.drop ((byteAt buf 0).toNat + 1))).1,
          buf.take ((byteAt buf 0).toNat + 1) :: (decodeScan (buf.drop ((byteAt buf 0).toNat + 1))).2)
      else (1 + (decodeScan (buf.drop 1)).1, (decodeScan (buf.drop 1)).2) := by
  cases buf with
  | nil => rfl
  | cons b rest =>
    have key : ∀ k, scanRest rest.length (rest.drop k) = decodeScan (rest.drop k) := fun k => by
      rw [decodeScan_eq_scanRest, scanRest_fuel _ _ (by simp)]
    rw [decodeScan_eq_scanRest]
    simp only [List.length_cons, scanRest, List.drop_succ_cons, key]

/-- Induction along the pass: each turn that goes on leaves fewer bytes. -/
theorem decodeScan_induction {P : List Byte → Prop}
    (turn : ∀ buf, (∀ k, 1 ≤ k → k ≤ buf.length → P (buf.drop k)) → P buf) (buf : List Byte) : P buf := by
  induction h : buf.length using Nat.strong_induction_on generalizing buf with
  | _ n ih =>
    refine turn buf fun k h1 h2 => ih (buf.length - k) (by omega) _ (by simp)

/-- A frame the pass finds is a run of the buffer's bytes, as long as its length byte says, with a length byte in range and
a valid CRC; and the pass never consumes more than there is (R87). -/
theorem decodeScan_sound (buf : List Byte) :
    (decodeScan buf).1 ≤ buf.length ∧
    ∀ f ∈ (decodeScan buf).2, f <:+: buf ∧ config.lenMin ≤ (byteAt f 0).toNat ∧ (byteAt f 0).toNat ≤ config.lenMax ∧
      f.length = (byteAt f 0).toNat + 1 ∧ crcValid f = true := by
  induction buf using decodeScan_induction with
  | turn buf ih =>
    rw [decodeScan_eq]
    split
    · simp
    · next h1 =>
      have hm : 1 ≤ buf.length := by simp only [config] at h1; omega
      have skip := ih 1 (le_refl _) hm
      have infix_drop : ∀ k (f : List Byte), f <:+: buf.drop k → f <:+: buf := fun k f hf =>
        hf.trans (List.drop_suffix k buf).isInfix
      have hskip : 1 + (decodeScan (buf.drop 1)).1 ≤ buf.length ∧ ∀ f ∈ (decodeScan (buf.drop 1)).2,
          f <:+: buf ∧ config.lenMin ≤ (byteAt f 0).toNat ∧ (byteAt f 0).toNat ≤ config.lenMax ∧
            f.length = (byteAt f 0).toNat + 1 ∧ crcValid f = true := by
        refine ⟨by have := skip.1; simp only [List.length_drop] at this; omega, fun f hf => ?_⟩
        obtain ⟨ha, hb⟩ := skip.2 f hf
        exact ⟨infix_drop 1 f ha, hb⟩
      split
      · exact hskip
      · next h2 =>
        split
        · simp
        · next h3 =>
          split
          · next h4 =>
            have rest := ih ((byteAt buf 0).toNat + 1) (by omega) (by omega)
            refine ⟨by have := rest.1; simp only [List.length_drop] at this; simp only; omega, fun f hf => ?_⟩
            rcases List.mem_cons.1 hf with rfl | hf
            · have h0 : byteAt (buf.take ((byteAt buf 0).toNat + 1)) 0 = byteAt buf 0 := by
                simp [byteAt, List.getD_eq_getElem?_getD]
              rw [h0]
              refine ⟨(List.take_prefix _ _).isInfix, by omega, by omega, by simp; omega, h4⟩
            · obtain ⟨ha, hb⟩ := rest.2 f hf
              exact ⟨infix_drop _ f ha, hb⟩
          · exact hskip

end Sys2Proof.Machine
end

