-- ==== Sys2Proof/Laws/Word.lean ====
section
/-! SUPPORT. The fields of a command word as numbers, and a byte of a 16-bit value as a number. -/

namespace Sys2Proof.Machine

theorem cwOp_toNat (cw : CommandWord) : (cwOp cw).toNat = cw.toNat / 2 ^ 28 := by
  have := cw.isLt
  simp only [cwOp, BitVec.extractLsb'_toNat, Nat.shiftRight_eq_div_pow]
  omega

theorem cwRsv_toNat (cw : CommandWord) : (cwRsv cw).toNat = cw.toNat / 2 ^ 16 % 2 ^ 12 := by
  simp only [cwRsv, BitVec.extractLsb'_toNat, Nat.shiftRight_eq_div_pow]

theorem cwCount_eq (cw : CommandWord) : cwCount cw = cw.toNat % 2 ^ 16 := by
  simp only [cwCount, BitVec.extractLsb'_toNat, Nat.shiftRight_eq_div_pow, Nat.pow_zero, Nat.div_one]

theorem makeCw_toNat (op : BitVec 4) (rsv : BitVec 12) (n : Nat) (h : n ≤ 65535) :
    (makeCw op rsv n).toNat = op.toNat * 2 ^ 28 + rsv.toNat * 2 ^ 16 + n := by
  have h1 := op.isLt
  have h2 := rsv.isLt
  simp only [makeCw, BitVec.toNat_append, BitVec.toNat_ofNat, Nat.shiftLeft_eq]
  rw [← Nat.shiftLeft_eq, ← Nat.shiftLeft_eq, Nat.mod_eq_of_lt (by omega : n < 2 ^ 16),
    ← Nat.shiftLeft_add_eq_or_of_lt (by omega : n < 2 ^ 16),
    ← Nat.shiftLeft_add_eq_or_of_lt (by omega : rsv.toNat < 2 ^ 12)]
  simp only [Nat.shiftLeft_eq]
  omega

theorem cwOp_makeCw (op : BitVec 4) (rsv : BitVec 12) (n : Nat) (h : n ≤ 65535) : cwOp (makeCw op rsv n) = op := by
  refine BitVec.eq_of_toNat_eq ?_
  have h2 := rsv.isLt
  rw [cwOp_toNat, makeCw_toNat _ _ _ h]; omega

theorem cwRsv_makeCw (op : BitVec 4) (rsv : BitVec 12) (n : Nat) (h : n ≤ 65535) : cwRsv (makeCw op rsv n) = rsv := by
  refine BitVec.eq_of_toNat_eq ?_
  have h2 := rsv.isLt
  rw [cwRsv_toNat, makeCw_toNat _ _ _ h]; omega

theorem cwCount_makeCw (op : BitVec 4) (rsv : BitVec 12) (n : Nat) (h : n ≤ 65535) :
    cwCount (makeCw op rsv n) = n := by
  rw [cwCount_eq, makeCw_toNat _ _ _ h]; omega

/-- A command word is made of its three fields. -/
theorem makeCw_fields (cw : CommandWord) : makeCw (cwOp cw) (cwRsv cw) (cwCount cw) = cw := by
  refine BitVec.eq_of_toNat_eq ?_
  have h := cw.isLt
  have hn : cwCount cw ≤ 65535 := by rw [cwCount_eq]; omega
  rw [makeCw_toNat _ _ _ hn, cwOp_toNat, cwRsv_toNat, cwCount_eq]; omega

theorem loByte_eq (v : Half) : loByte v = BitVec.ofNat 8 (v.toNat % 256) := by
  refine BitVec.eq_of_toNat_eq ?_
  simp [loByte]

theorem hiByte_eq (v : Half) : hiByte v = BitVec.ofNat 8 (v.toNat / 256) := by
  refine BitVec.eq_of_toNat_eq ?_
  simp [hiByte, Nat.shiftRight_eq_div_pow]

theorem littleEndian_toNat (lo hi : Byte) : (littleEndian lo hi).toNat = lo.toNat + 256 * hi.toNat := by
  have h1 := lo.isLt
  have h2 := hi.isLt
  simp only [littleEndian, BitVec.toNat_or, BitVec.toNat_shiftLeft, BitVec.toNat_setWidth]
  rw [Nat.mod_eq_of_lt (by omega : lo.toNat < 2 ^ 16), Nat.mod_eq_of_lt (by omega : hi.toNat < 2 ^ 16),
    Nat.mod_eq_of_lt (by rw [Nat.shiftLeft_eq]; omega), Nat.lor_comm,
    ← Nat.shiftLeft_add_eq_or_of_lt (by omega : lo.toNat < 2 ^ 8), Nat.shiftLeft_eq]
  omega

end Sys2Proof.Machine
end

