-- ==== Sys2Proof/Laws/Frames.lean ====
section
/-! SUPPORT. Byte access in a concatenation, the frame check of a frame with its length byte, and the bounds of a record. -/

namespace Sys2Proof.Machine

@[simp] theorem byteAt_cons_zero (b : Byte) (s : List Byte) : byteAt (b :: s) 0 = b := rfl

@[simp] theorem byteAt_cons_succ (b : Byte) (s : List Byte) (i : Nat) : byteAt (b :: s) (i + 1) = byteAt s i := rfl

theorem byteAt_append_left {s t : List Byte} {i : Nat} (h : i < s.length) : byteAt (s ++ t) i = byteAt s i := by
  simp [byteAt, List.getD_eq_getElem?_getD, List.getElem?_append_left h]

theorem byteAt_append_right {s t : List Byte} {i : Nat} (h : s.length ≤ i) :
    byteAt (s ++ t) i = byteAt t (i - s.length) := by
  simp [byteAt, List.getD_eq_getElem?_getD, List.getElem?_append_right h]

theorem byteAt_take {s : List Byte} {n i : Nat} (h : i < n) : byteAt (s.take n) i = byteAt s i := by
  simp [byteAt, List.getD_eq_getElem?_getD, h]

/-- A slice of a concatenation that lies in the second part. -/
theorem slice_append_right (s t : List Byte) (a b : Nat) : slice (s ++ t) (s.length + a) (s.length + b) = slice t a b := by
  rw [slice, ← List.drop_drop, List.drop_left, slice, show s.length + b - (s.length + a) = b - a by omega]

/-- The frame check of a sequence that begins with a region of `f[0] - 1` bytes and two more. -/
theorem crcValid_region {region ignored : List Byte} {lo hi : Byte}
    (h : region.length + 1 = (byteAt (region ++ lo :: hi :: ignored) 0).toNat) :
    crcValid (region ++ lo :: hi :: ignored) = (crc16 region == littleEndian lo hi) := by
  have hl : (byteAt (region ++ lo :: hi :: ignored) 0).toNat - 1 = region.length := by omega
  unfold crcValid
  simp only [hl]
  rw [if_neg (by simp), if_neg (by omega), if_neg (by simp; omega), ← h, byteAt_append_right (le_refl _),
    byteAt_append_right (by omega)]
  simp [slice, byteAt]

/-- A sequence that passes the check is a region of `f[0] - 1` bytes, then two bytes, then bytes that do not matter. -/
theorem crcValid_split {f : List Byte} (h : crcValid f = true) :
    ∃ region lo hi ignored, f = region ++ lo :: hi :: ignored ∧ region.length + 1 = (byteAt f 0).toNat := by
  unfold crcValid at h
  simp only at h
  split_ifs at h with h1 h2 h3
  obtain ⟨n, hn⟩ : ∃ n, (byteAt f 0).toNat = n + 1 := ⟨_, (Nat.succ_pred_eq_of_pos (by omega)).symm⟩
  have e1 : n < f.length := by omega
  have e2 : n + 1 < f.length := by omega
  refine ⟨f.take n, f[n], f[n + 1], f.drop (n + 2), ?_, ?_⟩
  · rw [← List.drop_eq_getElem_cons e2, ← List.drop_eq_getElem_cons e1, List.take_append_drop]
  · rw [List.length_take, hn]; omega

/-- A sequence whose first byte is its own length byte passes the check once its CRC is appended. -/
theorem crcValid_withCrc {b : List Byte} (h : (byteAt b 0).toNat = b.length + 1) : crcValid (withCrc b) = true := by
  have hpos : 0 < b.length := by
    cases b with
    | nil => simp [byteAt] at h
    | cons x b => simp
  have e : withCrc b = b ++ loByte (crc16 b) :: hiByte (crc16 b) :: [] := rfl
  have h0 : byteAt (withCrc b) 0 = byteAt b 0 := byteAt_append_left hpos
  rw [e, crcValid_region (by rw [← e, h0]; exact h.symm), littleEndian_bytes]
  simp

/-! ### Records -/

/-- The effective EPC length over the PC word as a number (R95). -/
theorem epcLen_eq (pc : Half) : epcLen pc = if pc.toNat / 2 ^ 11 = 0 then 12 else 2 * (pc.toNat / 2 ^ 11) := by
  have hlt := pc.isLt
  have hw : ((pc >>> 11) &&& 0x1F).toNat = pc.toNat / 2 ^ 11 := by
    rw [BitVec.toNat_and, BitVec.toNat_ushiftRight, Nat.shiftRight_eq_div_pow]
    show pc.toNat / 2 ^ 11 &&& 2 ^ 5 - 1 = _
    rw [Nat.and_two_pow_sub_one_eq_mod]
    omega
  unfold epcLen
  simp only [hw, config]
  split <;> split <;> omega

theorem epcLen_bounds (pc : Half) : 2 ≤ epcLen pc ∧ epcLen pc ≤ 62 ∧ epcLen pc % 2 = 0 := by
  have hlt := pc.isLt
  rw [epcLen_eq]
  split <;> omega

theorem sext8_bounds (b : Byte) : -128 ≤ sext8 b ∧ sext8 b ≤ 127 := by
  have := b.isLt
  unfold sext8
  split <;> omega

/-- The record loop gives at most as many records as asked, each with an EPC of a legal length that stands within the
region, and an RSSI in range. -/
theorem tagLoop_bounds (f : List Byte) (stop num pos : Nat) (hstop : stop ≤ f.length) :
    (tagLoop f stop num pos).length ≤ num ∧
    ∀ r ∈ tagLoop f stop num pos, 2 ≤ r.1.length ∧ r.1.length ≤ 62 ∧ r.1.length % 2 = 0 ∧
      r.1 <:+: slice f pos stop ∧ -128 ≤ r.2 ∧ r.2 ≤ 127 := by
  induction num generalizing pos with
  | zero => simp [tagLoop]
  | succ num ih =>
    simp only [tagLoop]
    split
    · simp
    · split
      · simp
      · next h1 h2 =>
        generalize hpc : bigEndian (byteAt f pos) (byteAt f (pos + 1)) = pc at *
        obtain ⟨b1, b2, b3⟩ := epcLen_bounds pc
        generalize epcLen pc = e at *
        obtain ⟨i1, i2⟩ := ih (pos + e + 3)
        refine ⟨by simp; omega, fun r hr => ?_⟩
        rcases List.mem_cons.1 hr with rfl | hr
        · have hlen : (slice f (pos + 2) (pos + 2 + e)).length = e := by
            simp only [slice, List.length_take, List.length_drop]; omega
          refine ⟨by rw [hlen]; exact b1, by rw [hlen]; exact b2, by rw [hlen]; exact b3, ?_, sext8_bounds _⟩
          refine ⟨slice f pos (pos + 2), slice f (pos + 2 + e) stop, ?_⟩
          simp only [slice]
          rw [show (f.drop pos).take (stop - pos) =
              (f.drop pos).take 2 ++ (((f.drop pos).drop 2).take e ++ (((f.drop pos).drop 2).drop e).take (stop - pos - 2 - e)) from ?_]
          · simp only [List.drop_drop, List.append_assoc, show pos + 2 - pos = 2 by omega,
              show pos + 2 + e - (pos + 2) = e by omega, show stop - (pos + 2 + e) = stop - pos - 2 - e by omega]
          · rw [← List.take_add, ← List.take_add]; congr 1; omega
        · obtain ⟨j1, j2, j3, j4, j5⟩ := i2 r hr
          refine ⟨j1, j2, j3, j4.trans ?_, j5⟩
          simp only [slice]
          rw [show f.drop (pos + e + 3) = (f.drop pos).drop (e + 3) by rw [List.drop_drop, Nat.add_assoc],
            show stop - (pos + e + 3) = stop - pos - (e + 3) by omega, ← List.drop_take]
          exact (List.drop_suffix _ _).isInfix

end Sys2Proof.Machine
end

