-- ==== Sys2Proof/Laws/Ops.lean ====
section
/-! SUPPORT. For each shared operation one lemma that says all it can do where it answers at all, and one that says what it
does in a state that holds a stream. -/

namespace Sys2Proof.Machine

theorem memWrite_ok {s : State} {i : Nat} {v : List Byte} {m : Memory} (h : memWrite s i v = .ok m) :
    i + v.length ≤ s.rxCap ∧ m = Memory.setMany s.rxbuf i v := by
  unfold memWrite at h
  split at h
  · cases h
  · next hc => cases h; exact ⟨by omega, rfl⟩

theorem memRead_length {s : State} {i n : Nat} {bs : List Byte} (h : memRead s i n = .ok bs) : bs.length = n := by
  induction n generalizing i bs with
  | zero => rw [memRead] at h; cases h; rfl
  | succ n ih =>
    rw [memRead] at h
    split at h
    · cases h
    · split at h
      · cases h
      · next hr => cases h; simp [ih hr]

/-- The appended bytes are stored from RXLEN on, within RX_CAP, and RXLEN grows by their number. -/
theorem append_ok {s t : State} {data : List Byte} (h : append data s = .ok t) :
    s.rxLen.toNat + data.length ≤ s.rxCap ∧
    t = s.setRx (Memory.setMany s.rxbuf s.rxLen.toNat data) (s.rxLen.toNat + data.length) := by
  unfold append at h
  split at h
  · cases h
  · next m hm =>
    obtain ⟨h1, rfl⟩ := memWrite_ok hm
    cases h
    exact ⟨h1, rfl⟩

/-- Compaction reads the unconsumed bytes, stores them from index 0 on, and drops what lies beyond. -/
theorem compact_ok {s t : State} {c : Nat} (h : compact c s = .ok t) :
    ∃ kept, memRead s c (s.rxLen.toNat - c) = .ok kept ∧
      t = s.setRx (Memory.keepBelow (Memory.setMany s.rxbuf 0 kept) (s.rxLen.toNat - c)) (s.rxLen.toNat - c) := by
  simp only [compact] at h
  split at h
  · cases h
  · next kept hk =>
    split at h
    · cases h
    · next m hm =>
      obtain ⟨-, rfl⟩ := memWrite_ok hm
      cases h
      exact ⟨kept, hk, rfl⟩

theorem finish_next {r : Except Fault State} {t : State} (h : finish r = .next t) : r = .ok t := by
  cases r with
  | error e => cases h
  | ok s => cases h; rfl

/-- A decode pass emits the events of the frames of the buffered stream, then ConsumedOut, and compacts. -/
theorem decodePass_next {events : List Byte → List Event} {s t : State} (h : decodePass events s = .next t) :
    ∃ buf, received s = .ok buf ∧
      compact (decodeScan buf).1
        (s.emit ((decodeScan buf).2.flatMap events ++ [.consumedOut (decodeScan buf).1])) = .ok t := by
  unfold decodePass at h
  split at h
  · cases h
  · next buf hb => exact ⟨buf, hb, finish_next h⟩

/-- In a state that holds a stream, a decode pass answers a next state. -/
theorem Holds.decodePass {s : State} {bs : List Byte} (h : Holds s bs) (events : List Byte → List Event) :
    decodePass events s =
      .next ((s.emit ((decodeScan bs).2.flatMap events ++ [.consumedOut (decodeScan bs).1])).setRx
        (Memory.cells 0 (bs.drop (decodeScan bs).1)) (bs.length - (decodeScan bs).1)) := by
  unfold Machine.decodePass
  rw [h.received]
  simp only
  rw [(h.emit _).compact (decodeScan_sound bs).1]
  rfl

/-- In a state that holds a stream and has FAULT clear, RX_PUSH of bytes that fit appends them. -/
theorem Holds.execRxPush {s : State} {bs data : List Byte} (h : Holds s bs) (hf : s.fault.valid = false)
    (hfit : bs.length + data.length ≤ s.rxCap) :
    execRxPush data s =
      .next (s.setRx (Memory.cells 0 (bs ++ data)) (bs.length + data.length)) := by
  have ho : overflows s data.length = false := by
    simp only [overflows, decide_eq_false_iff_not, h.len]; omega
  rw [Machine.execRxPush, unlessFaulted_of_clear _ hf, ho, h.append hfit]
  rfl

/-- RX_PUSH of bytes that do not fit enters RxOverflow. -/
theorem execRxPush_overflow {s : State} {data : List Byte} (hf : s.fault.valid = false)
    (hover : s.rxCap < s.rxLen.toNat + data.length) :
    execRxPush data s = .next (s.setFault ⟨true, 4, makeCw 0x7 0 data.length⟩) := by
  have ho : overflows s data.length = true := by simpa [overflows] using hover
  rw [execRxPush, unlessFaulted_of_clear _ hf, ho, if_pos rfl, raiseFault_of_clear _ hf]
  rfl

end Sys2Proof.Machine
end

