-- ==== Sys2Proof/Laws/PerInstr.lean ====
section
/-! SUPPORT. The per-instruction family `Complete`: the encoding of a well-formed instruction is complete. A host operation
carries exactly the N operand bytes its command word counts (30_encoding.md R40, R43), and a wire frame exactly the bytes
its length byte counts (R46). -/

namespace Sys2Proof.Laws.Complete

open Sys2Proof Sys2Proof.Machine

/-- A code holds as many bytes as its own count says. -/
def Whole : Code → Prop
  | .op t => t.data.length = cwCount t.cw
  | .command f => f.length = (byteAt f 0).toNat + 1
  | .response f => f.length = (byteAt f 0).toNat + 1

/-- What the family says of an instruction. -/
def Statement (i : Instr) : Prop := i.wellFormed = true → Whole (encode i)

theorem whole_op (op : BitVec 4) (rsv : BitVec 12) (data : List Byte) (h : data.length ≤ maxOperands) :
    Whole (.op ⟨makeCw op rsv data.length, data⟩) :=
  (cwCount_makeCw op rsv data.length h).symm

theorem crc16 (data : List Byte) : Statement (.crc16 data) := fun h => whole_op _ _ _ (of_decide_eq_true h)

theorem appendCrc (data : List Byte) : Statement (.appendCrc data) := fun h => whole_op _ _ _ (of_decide_eq_true h)

theorem verifyCrc (frame : List Byte) : Statement (.verifyCrc frame) := fun h => whole_op _ _ _ (of_decide_eq_true h)

theorem buildInventory (q session target antenna scantime : Byte) :
    Statement (.buildInventory q session target antenna scantime) :=
  fun _ => whole_op 0x4 0 [q, session, target, antenna, scantime] (by simp [maxOperands])

theorem buildStop : Statement .buildStop := fun _ => whole_op 0x5 0 [] (by simp [maxOperands])

theorem buildSetPower (power : Byte) : Statement (.buildSetPower power) :=
  fun _ => whole_op 0x6 0 [power] (by simp [maxOperands])

theorem rxPush (data : List Byte) : Statement (.rxPush data) := fun h => whole_op _ _ _ (of_decide_eq_true h)

theorem decode : Statement .decode := fun _ => whole_op 0x8 0 [] (by simp [maxOperands])

theorem tagDecode (frame : List Byte) : Statement (.tagDecode frame) := fun h => whole_op _ _ _ (of_decide_eq_true h)

theorem process : Statement .process := fun _ => whole_op 0xA 0 [] (by simp [maxOperands])

theorem reset (rsv : BitVec 12) (discarded : List Byte) : Statement (.reset rsv discarded) :=
  fun h => whole_op _ _ _ (of_decide_eq_true h)

theorem wireInventory (q session target antenna scantime : Byte) :
    Statement (.wireInventory q session target antenna scantime) := fun _ => rfl

theorem wireStopInventory : Statement .wireStopInventory := fun _ => rfl

theorem wireSetPower (power : Byte) : Statement (.wireSetPower power) := fun _ => rfl

theorem wireInventoryResponse (address status : Byte) (body : List Byte) :
    Statement (.wireInventoryResponse address status body) := by
  intro h
  have hb : body.length + 5 ≤ 250 := of_decide_eq_true h
  have hl : config.hdrLen + body.length + 1 = body.length + 5 := by simp only [config]; omega
  simp [Whole, encode, responseFrame, withCrc, trailer, hl]
  omega

end Sys2Proof.Laws.Complete
end

