-- ==== Sys2Proof/Laws/Step.lean ====
section
/-! SUPPORT. What the decoder and one step can do. -/

namespace Sys2Proof.Machine

/-- What decoding a transaction that is complete comes to: the word's own fault, or the operation OP selects. -/
theorem decodeOp_complete {t : Transaction} (h : t.data.length = cwCount t.cw) :
    decodeOp t = match checkWord t.cw with
      | some c => .error (.fault c)
      | none => operation (cwOp t.cw) (cwRsv t.cw) t.data := by
  unfold decodeOp
  exact (if_neg (by omega)).trans (if_neg (by omega))

/-- A transaction that decodes is complete, and its word passes the check. -/
theorem decodeOp_ok {t : Transaction} {i : Instr} (h : decodeOp t = .ok i) :
    t.data.length = cwCount t.cw ∧ checkWord t.cw = none ∧ operation (cwOp t.cw) (cwRsv t.cw) t.data = .ok i := by
  unfold decodeOp at h
  split at h
  · cases h
  · split at h
    · cases h
    · split at h
      · cases h
      · next hc => exact ⟨by omega, hc, h⟩

/-- `checkWord` over the bits of CW as numbers. -/
theorem checkWord_eq (cw : CommandWord) :
    checkWord cw =
      if cw.toNat / 2 ^ 28 = 15 then none
      else if cw.toNat / 2 ^ 28 = 0 ∨ 11 ≤ cw.toNat / 2 ^ 28 then some .illegalOp
      else if cw.toNat / 2 ^ 16 % 2 ^ 12 ≠ 0 then some .reservedBits
      else if cw.toNat / 2 ^ 28 = 4 ∧ cw.toNat % 2 ^ 16 ≠ 5 then some .operandCount
      else if cw.toNat / 2 ^ 28 = 6 ∧ cw.toNat % 2 ^ 16 ≠ 1 then some .operandCount
      else if (cw.toNat / 2 ^ 28 = 5 ∨ cw.toNat / 2 ^ 28 = 8 ∨ cw.toNat / 2 ^ 28 = 10) ∧ cw.toNat % 2 ^ 16 ≠ 0 then
        some .operandCount
      else none := by
  have hop : ∀ k : BitVec 4, cwOp cw = k ↔ cw.toNat / 2 ^ 28 = k.toNat := fun k => by
    rw [← cwOp_toNat]; exact ⟨fun h => by rw [h], fun h => BitVec.eq_of_toNat_eq h⟩
  have hrsv : cwRsv cw = 0 ↔ cw.toNat / 2 ^ 16 % 2 ^ 12 = 0 := by
    rw [← cwRsv_toNat]; exact ⟨fun h => by rw [h]; rfl, fun h => BitVec.eq_of_toNat_eq h⟩
  have hlt : cw.toNat / 2 ^ 28 < 16 := by have := cw.isLt; omega
  unfold checkWord
  simp only [hop, ne_eq, hrsv, cwCount_eq, List.mem_cons, List.not_mem_nil, or_false]
  simp only [show (0xF : BitVec 4).toNat = 15 from rfl, show (0x0 : BitVec 4).toNat = 0 from rfl,
    show (0xB : BitVec 4).toNat = 11 from rfl, show (0xC : BitVec 4).toNat = 12 from rfl,
    show (0xD : BitVec 4).toNat = 13 from rfl, show (0xE : BitVec 4).toNat = 14 from rfl,
    show (0x4 : BitVec 4).toNat = 4 from rfl, show (0x6 : BitVec 4).toNat = 6 from rfl,
    show (0x5 : BitVec 4).toNat = 5 from rfl, show (0x8 : BitVec 4).toNat = 8 from rfl,
    show (0xA : BitVec 4).toNat = 10 from rfl]
  have hill : (cw.toNat / 2 ^ 28 = 0 ∨ cw.toNat / 2 ^ 28 = 11 ∨ cw.toNat / 2 ^ 28 = 12 ∨ cw.toNat / 2 ^ 28 = 13 ∨
      cw.toNat / 2 ^ 28 = 14) ↔ ((cw.toNat / 2 ^ 28 = 0 ∨ 11 ≤ cw.toNat / 2 ^ 28) ∧ ¬ cw.toNat / 2 ^ 28 = 15) := by omega
  split
  · rfl
  · next h15 => simp only [hill, h15, not_false_eq_true, and_true]

/-- A word that passes the check, with its operand bytes, is an operation. -/
theorem operation_ok {t : Transaction} (hl : t.data.length = cwCount t.cw) (hc : checkWord t.cw = none) :
    ∃ i, operation (cwOp t.cw) (cwRsv t.cw) t.data = .ok i := by
  rw [checkWord_eq] at hc
  rw [cwCount_eq] at hl
  have hlt : t.cw.toNat / 2 ^ 28 < 16 := by have := t.cw.isLt; omega
  have h5 : ∀ d : List Byte, d.length = 5 → ∃ a b c e f, d = [a, b, c, e, f] := by
    intro d hd
    match d, hd with
    | [a, b, c, e, f], _ => exact ⟨a, b, c, e, f, rfl⟩
  have h1 : ∀ d : List Byte, d.length = 1 → ∃ a, d = [a] := fun d hd => List.length_eq_one_iff.1 hd
  unfold operation
  rw [cwOp_toNat]
  generalize t.cw.toNat / 2 ^ 28 = op at *
  split_ifs at hc with c1 c2 c3 c4 c5 c6
  · rw [c1]; exact ⟨_, rfl⟩
  · have : op = 1 ∨ op = 2 ∨ op = 3 ∨ op = 4 ∨ op = 5 ∨ op = 6 ∨ op = 7 ∨ op = 8 ∨ op = 9 ∨ op = 10 := by omega
    rcases this with h | h | h | h | h | h | h | h | h | h <;> subst h
    · exact ⟨_, rfl⟩
    · exact ⟨_, rfl⟩
    · exact ⟨_, rfl⟩
    · obtain ⟨a, b, c, e, f, hd⟩ := h5 t.data (by omega)
      rw [hd]; exact ⟨_, rfl⟩
    · exact ⟨_, rfl⟩
    · obtain ⟨a, hd⟩ := h1 t.data (by omega)
      rw [hd]; exact ⟨_, rfl⟩
    · exact ⟨_, rfl⟩
    · exact ⟨_, rfl⟩
    · exact ⟨_, rfl⟩
    · exact ⟨_, rfl⟩

/-- Every answer the step gives: it waits; it runs the operation a complete transaction decodes to; it enters the fault a
complete transaction's word has; or it refuses a transaction with surplus bytes. -/
theorem step_cases (s : State) :
    (step s = .next s ∧ fetch s = .waiting) ∨
    (step s = .refused .hostMove ∧ fetch s = .overrun) ∨
    ∃ t rest, s.port = t :: rest ∧ t.data.length = cwCount t.cw ∧
      ((∃ i, checkWord t.cw = none ∧ operation (cwOp t.cw) (cwRsv t.cw) t.data = .ok i ∧ step s = exec i (s.setPort rest)) ∨
       ∃ c, checkWord t.cw = some c ∧ step s = .next (raiseFault c t.cw (s.setPort rest))) := by
  unfold step
  cases hp : s.port with
  | nil => exact .inl (by simp [fetch, hp])
  | cons t rest =>
    rcases Nat.lt_trichotomy t.data.length (cwCount t.cw) with h | h | h
    · exact .inl (by simp [fetch, hp, h])
    · refine .inr (.inr ⟨t, rest, rfl, h, ?_⟩)
      have hf : fetch s = .taken t (s.setPort rest) := by simp [fetch, hp, h]
      rw [hf]
      simp only [decode, decodeOp_complete h]
      cases hc : checkWord t.cw with
      | some c => exact .inr ⟨c, rfl, rfl⟩
      | none =>
        obtain ⟨i, hi⟩ := operation_ok h hc
        exact .inl ⟨i, rfl, hi, by simp [hi]⟩
    · exact .inr (.inl (by simp [fetch, hp, h, show ¬ t.data.length < cwCount t.cw by omega]))

end Sys2Proof.Machine
end

