-- ==== Sys2Proof/Tests/Slice0.lean ====
section
/-! SUPPORT. The model's own tests. Every expected value is one that spec/95_test_vectors.md writes out (the vector is named),
or is read from the encoding tables of spec/30_encoding.md. After them, for every statement of
Certificates/Slice0/Obligations.lean that has hypotheses, a witness that meets them together. -/

namespace Sys2Proof.Tests

-- one proof at a time: each `decide +kernel` waits for the declarations before it, on a thread of its own
set_option Elab.async false

open Sys2Proof Sys2Proof.Machine

/-! ### The frames of 95_test_vectors.md, section 2 -/

/-- The EPC of most frames. -/
def e12 : List Byte := [0xE2, 0x00, 0x00, 0x17, 0x22, 0x0B, 0x01, 0x23, 0x45, 0x67, 0x89, 0xAB]

/-- One tag, PC 3000, RSSI CE. -/
def f1 : List Byte := [0x15, 0x00, 0x01, 0x01, 0x01, 0x30, 0x00] ++ e12 ++ [0xCE, 0x87, 0xBE]

/-- Two tags, status 02, the second PC 1000. -/
def f2 : List Byte :=
  [0x1C, 0x00, 0x01, 0x02, 0x02, 0x30, 0x00] ++ e12 ++ [0xCE, 0x10, 0x00, 0x30, 0x08, 0x33, 0xB2, 0x20, 0xAF, 0xD0]

/-- One record where the count byte says two. -/
def f4 : List Byte := [0x15, 0x00, 0x01, 0x01, 0x02, 0x30, 0x00] ++ e12 ++ [0xCE, 0xA6, 0x24]

/-- A status FB response. -/
def f5 : List Byte := [0x06, 0x00, 0x01, 0xFB, 0x00, 0x6C, 0xC9]

/-- A stop-shaped response. -/
def fS : List Byte := [0x05, 0x00, 0x93, 0x00, 0x43, 0x5E]

/-! ### Helpers -/

/-- The engine after RESET with `bs` buffered. -/
def holding (bs : List Byte) : State := State.reset.setRx (Memory.cells 0 bs) bs.length

/-- The engine of V-FLT-1: IllegalOp raised by 0xB0000000. -/
def faulted : State := { State.reset with fault := ⟨true, 1, 0xB0000000⟩ }

/-- `s` with one transaction on its port. -/
def given (s : State) (cw : CommandWord) (data : List Byte) : State := { s with port := [⟨cw, data⟩] }

/-- The next state of an outcome. -/
def nextOf : Host.Outcome State Fault Refusal → Option State
  | .next s => some s
  | .fault _ => none
  | .refused _ => none

theorem eq_next {o : Host.Outcome State Fault Refusal} {t : State} (h : nextOf o = some t) : o = .next t := by
  cases o with
  | next s => cases h; rfl
  | fault e => cases h
  | refused r => cases h

theorem exists_next {o : Host.Outcome State Fault Refusal} (h : (nextOf o).isSome = true) : ∃ t, o = .next t := by
  cases o with
  | next s => exact ⟨s, rfl⟩
  | fault e => cases h
  | refused r => cases h

/-! ### Ill-formed terms -/

/-- An operand count beyond CW[15:0] has no encoding (R43). -/
theorem test_too_many_operands_refused :
    ∀ d : List Byte, d.length = 65536 →
      (Instr.crc16 d).wellFormed = false ∧ (Instr.appendCrc d).wellFormed = false ∧
      (Instr.verifyCrc d).wellFormed = false ∧ (Instr.rxPush d).wellFormed = false ∧
      (Instr.tagDecode d).wellFormed = false ∧ (Instr.reset 0 d).wellFormed = false := by
  intro d h; simp [Instr.wellFormed, maxOperands, h]

/-- There is such an operand sequence. -/
theorem test_too_many_operands_exist : (List.replicate 65536 (0 : Byte)).length = 65536 := List.length_replicate

/-- A response frame longer than LEN_MAX (R47). -/
theorem test_long_response_refused : (Instr.wireInventoryResponse 0 1 (List.replicate 246 0)).wellFormed = false := by
  decide +kernel

/-- The longest response frame and the longest operand sequence are well-formed. -/
theorem test_longest_accepted :
    (Instr.wireInventoryResponse 0 1 (List.replicate 245 0)).wellFormed = true ∧
    ∀ d : List Byte, d.length = 65535 → (Instr.rxPush d).wellFormed = true := by
  refine ⟨by decide +kernel, fun d h => by simp [Instr.wellFormed, maxOperands, h]⟩

/-! ### Decoding: one word per constructor, written out from R41 and R50 to R55 -/

theorem test_decode_crc16 : decode (.op ⟨0x10000002, [0xFF, 0xFF]⟩) = .ok (.crc16 [0xFF, 0xFF]) := by decide +kernel

theorem test_decode_appendCrc :
    decode (.op ⟨0x20000003, [0x04, 0xFF, 0x93]⟩) = .ok (.appendCrc [0x04, 0xFF, 0x93]) := by decide +kernel

theorem test_decode_verifyCrc :
    decode (.op ⟨0x30000003, [0x02, 0x95, 0x2C]⟩) = .ok (.verifyCrc [0x02, 0x95, 0x2C]) := by decide +kernel

/-- The operand order of R41: q, session, target, antenna, scantime. -/
theorem test_decode_buildInventory :
    decode (.op ⟨0x40000005, [0x04, 0x01, 0x02, 0x80, 0x0A]⟩) = .ok (.buildInventory 0x04 0x01 0x02 0x80 0x0A) := by
  decide +kernel

theorem test_decode_buildStop : decode (.op ⟨0x50000000, []⟩) = .ok .buildStop := by decide +kernel

theorem test_decode_buildSetPower : decode (.op ⟨0x60000001, [0xE2]⟩) = .ok (.buildSetPower 0xE2) := by decide +kernel

theorem test_decode_rxPush : decode (.op ⟨0x70000002, [0x11, 0x22]⟩) = .ok (.rxPush [0x11, 0x22]) := by decide +kernel

theorem test_decode_decode : decode (.op ⟨0x80000000, []⟩) = .ok .decode := by decide +kernel

theorem test_decode_tagDecode : decode (.op ⟨0x90000007, f5⟩) = .ok (.tagDecode f5) := by decide +kernel

theorem test_decode_process : decode (.op ⟨0xA0000000, []⟩) = .ok .process := by decide +kernel

/-- RESET ignores CW[27:16] (R42). -/
theorem test_decode_reset : decode (.op ⟨0xF1230001, [0x55]⟩) = .ok (.reset 0x123 [0x55]) := by decide +kernel

/-- V-CMD-1's frame. -/
theorem test_decode_wireInventory :
    decode (.command [0x09, 0xFF, 0x01, 0x04, 0x00, 0x00, 0x80, 0x0A, 0x87, 0x54]) =
      .ok (.wireInventory 0x04 0x00 0x00 0x80 0x0A) := by decide +kernel

/-- V-CMD-5's frame. -/
theorem test_decode_wireStopInventory : decode (.command [0x04, 0xFF, 0x93, 0x80, 0x03]) = .ok .wireStopInventory := by
  decide +kernel

/-- V-CMD-6's frame. -/
theorem test_decode_wireSetPower : decode (.command [0x05, 0xFF, 0x2F, 0x1E, 0x81, 0xF2]) = .ok (.wireSetPower 0x1E) := by
  decide +kernel

/-- F5. -/
theorem test_decode_wireInventoryResponse : decode (.response f5) = .ok (.wireInventoryResponse 0x00 0xFB [0x00]) := by
  decide +kernel

/-- The reserved OPs, non-zero RSV and wrong counts, each rejected by its cause (V-FLT-1 to V-FLT-8). -/
theorem test_decode_rejects :
    decode (.op ⟨0xB0000000, []⟩) = .error (.fault .illegalOp) ∧
    decode (.op ⟨0x00000000, []⟩) = .error (.fault .illegalOp) ∧
    decode (.op ⟨0x00010001, [0x00]⟩) = .error (.fault .illegalOp) ∧
    decode (.op ⟨0x10010000, []⟩) = .error (.fault .reservedBits) ∧
    decode (.op ⟨0x7FFF0000, []⟩) = .error (.fault .reservedBits) ∧
    decode (.op ⟨0x80000001, [0x00]⟩) = .error (.fault .operandCount) ∧
    decode (.op ⟨0x40000004, [1, 2, 3, 4]⟩) = .error (.fault .operandCount) ∧
    decode (.op ⟨0x60000000, []⟩) = .error (.fault .operandCount) ∧
    decode (.op ⟨0x10000002, [0x00]⟩) = .error .undelivered ∧
    decode (.op ⟨0x10000000, [0x00]⟩) = .error .surplus := by decide +kernel

/-- A wire frame with a wrong trailer, a wrong address or a wrong length byte is no frame of the table. -/
theorem test_decode_rejects_frames :
    decode (.command [0x04, 0xFF, 0x93, 0x80, 0x04]) = .error .badTrailer ∧
    decode (.command [0x04, 0x00, 0x93, 0x80, 0x03]) = .error .noSuchFrame ∧
    decode (.command [0x05, 0xFF, 0x93, 0x80, 0x03]) = .error .noSuchFrame ∧
    decode (.response fS) = .error .noSuchFrame ∧
    decode (.response [0x06, 0x00, 0x01, 0xFB, 0x00, 0x6C, 0xC8]) = .error .badTrailer := by decide +kernel

/-! ### Rows of the opcode table -/

/-- A host operation, a command frame and a response frame of the opcode table, as its bits are numbered. -/
theorem test_table_words :
    decodeTableWord 32 0x40000005 = some (.buildInventory 0 0 0 0 0) ∧
    decodeTableWord 24 0x09FF01 = some (.wireInventory 0 0 0 0 0) ∧
    decodeTableWord 24 0x04FF93 = some .wireStopInventory ∧
    decodeTableWord 24 0x05FF2F = some (.wireSetPower 0) ∧
    decodeTableWord 16 0x0101 = some (.wireInventoryResponse 0 0x01 [0]) := by decide +kernel

/-- The step after placing a row's word runs it: V-CMD-4's frame, V-CMD-5's frame, and a response with no record. -/
theorem test_placed_words_run :
    (nextOf (step (State.reset.withFetchWord 32 0x10000000))).map State.out = some [.crcOut 0xFFFF] ∧
    (nextOf (step (State.reset.withFetchWord 24 0x09FF01))).map State.out =
      some [.bytesOut [0x09, 0xFF, 0x01, 0, 0, 0, 0, 0, 0x01, 0x5A]] ∧
    (nextOf (step (State.reset.withFetchWord 24 0x04FF93))).map State.out =
      some [.bytesOut [0x04, 0xFF, 0x93, 0x80, 0x03]] ∧
    ((nextOf (step (State.reset.withFetchWord 16 0x01FB))).map State.out) =
      some [.frameOut f5, .consumedOut 7] := by decide +kernel

/-! ### Meanings -/

/-- V-CRC-9, the check value. -/
theorem test_crc16_check_value :
    nextOf (exec (.crc16 [0x31, 0x32, 0x33, 0x34, 0x35, 0x36, 0x37, 0x38, 0x39]) State.reset) =
      some { State.reset with out := [.crcOut 0x6F91] } := by decide +kernel

/-- V-CRC-14: D[0] is not checked, and the CRC's low byte comes first. -/
theorem test_appendCrc_low_byte_first :
    nextOf (exec (.appendCrc [0x00, 0x00]) State.reset) =
      some { State.reset with out := [.bytesOut [0x00, 0x00, 0xB8, 0xF0]] } := by decide +kernel

/-- V-CRC-19 to V-CRC-22: L = 1, L = 2, a missing byte, a byte beyond f[L]. -/
theorem test_verifyCrc_corners :
    crcValid [0x01, 0xFF, 0xFF] = false ∧ crcValid [0x02, 0x95, 0x2C] = true ∧ crcValid (f1.take 21) = false ∧
    crcValid (f1 ++ [0x55]) = true ∧ crcValid [] = false ∧ crcValid [0x00] = false := by decide +kernel

/-- V-CRC-16: one wrong trailer byte. -/
theorem test_verifyCrc_false :
    nextOf (exec (.verifyCrc [0x09, 0xFF, 0x01, 0x04, 0x00, 0x00, 0x80, 0x0A, 0x87, 0x55]) State.reset) =
      some { State.reset with out := [.validOut false] } := by decide +kernel

/-- V-CMD-1. -/
theorem test_buildInventory :
    nextOf (exec (.buildInventory 0x04 0x00 0x00 0x80 0x0A) State.reset) =
      some { State.reset with out := [.bytesOut [0x09, 0xFF, 0x01, 0x04, 0x00, 0x00, 0x80, 0x0A, 0x87, 0x54]] } := by
  decide +kernel

/-- V-CMD-2: the antenna and the scan time stand in the last two payload places. -/
theorem test_buildInventory_places :
    nextOf (exec (.buildInventory 0x00 0x00 0x00 0x01 0x0A) State.reset) =
      some { State.reset with out := [.bytesOut [0x09, 0xFF, 0x01, 0x00, 0x00, 0x00, 0x01, 0x0A, 0x83, 0xEC]] } := by
  decide +kernel

/-- V-CMD-5. -/
theorem test_buildStop :
    nextOf (exec .buildStop State.reset) = some { State.reset with out := [.bytesOut [0x04, 0xFF, 0x93, 0x80, 0x03]] } := by
  decide +kernel

/-- V-CMD-11: -128 dBm is not refused. -/
theorem test_buildSetPower_least :
    nextOf (exec (.buildSetPower 0x80) State.reset) =
      some { State.reset with out := [.bytesOut [0x05, 0xFF, 0x2F, 0x80, 0x76, 0x8F]] } := by decide +kernel

/-- V-FLT-10: a push to exactly RX_CAP does not fault. -/
theorem test_rxPush_fills :
    (nextOf (exec (.rxPush (List.replicate 254 0x00)) (holding [0x30, 0x00]))).map
      (fun t => (t.rxLen, t.fault, t.out)) = some (256, .clear, []) := by decide +kernel

/-- V-FLT-9: one byte more faults, and writes nothing. -/
theorem test_rxPush_overflows :
    nextOf (exec (.rxPush (List.replicate 255 0x00)) (holding [0x30, 0x00])) =
      some { holding [0x30, 0x00] with fault := ⟨true, 4, 0x700000FF⟩ } := by decide +kernel

/-- V-DEC-1: noise, a frame and a tail. -/
theorem test_decode_noise_frame_tail :
    nextOf (exec .decode (holding ([0x00, 0x01, 0xFF, 0x03] ++ f1 ++ [0x02, 0x00]))) =
      some { holding [0x02, 0x00] with out := [.frameOut f1, .consumedOut 26] } := by decide +kernel

/-- V-DEC-5: a corrupted frame, and the stall of an in-range byte inside it. -/
theorem test_decode_stall :
    nextOf (exec .decode (holding (f1.set 6 0x01))) =
      some { holding ((f1.set 6 0x01).drop 5) with out := [.consumedOut 5] } := by decide +kernel

/-- V-DEC-12, V-DEC-14, V-DEC-16, V-DEC-17: the bounds of steps 1 and 2. -/
theorem test_decodeScan_bounds :
    decodeScan [0xFB, 0xFB, 0xFB, 0xFB, 0xFB] = (1, []) ∧ decodeScan [0x04, 0x00, 0x00, 0x00, 0x00] = (1, []) ∧
    decodeScan [0x03, 0x00, 0x00, 0x00, 0x00, 0x00] = (2, []) ∧ decodeScan [0x03, 0x02, 0x95, 0x2C, 0x00] = (1, []) ∧
    decodeScan [0xFB, 0x04, 0xFF, 0x93, 0x80, 0x03] = (6, [[0x04, 0xFF, 0x93, 0x80, 0x03]]) := by decide +kernel

/-- V-TAG-2: two records. -/
theorem test_tagDecode_two :
    nextOf (exec (.tagDecode f2) State.reset) =
      some { State.reset with out := [.tagOut e12 (-50), .tagOut [0x30, 0x08, 0x33, 0xB2] 32] } := by decide +kernel

/-- V-TAG-4, V-TAG-5, V-TAG-9, V-TAG-12, V-TAG-14, V-TAG-16, V-TAG-17: the gate and the bounds. -/
theorem test_tagRecords_corners :
    tagRecords f4 = [(e12, -50)] ∧ tagRecords f5 = [] ∧
    tagRecords [0x0B, 0x00, 0x01, 0x01, 0x01, 0x08, 0x00, 0xAA, 0xBB, 0xFF, 0xB5, 0x6C] = [([0xAA, 0xBB], -1)] ∧
    tagRecords [0x0A, 0x00, 0x01, 0x01, 0x01, 0x30, 0x00, 0x11, 0x22, 0x39, 0xF8] = [] ∧
    tagRecords [0x09, 0x00, 0x01, 0x01, 0x01, 0x30, 0x00, 0x11, 0xFD, 0x44] = [] ∧
    tagRecords (f1.set 21 0x00) = [(e12, -50)] ∧ tagRecords (f1.take 21) = [] := by decide +kernel

/-- V-DEC-21: a frame's TagOut events stand between its FrameOut and the next frame's. -/
theorem test_process_order :
    nextOf (exec .process (holding (f1 ++ fS))) =
      some { State.reset with out := [.frameOut f1, .tagOut e12 (-50), .frameOut fS, .consumedOut 28] } := by decide +kernel

/-- V-RST-1: RESET clears a faulted engine. -/
theorem test_reset_after_fault :
    nextOf (exec (.reset 0 []) { holding [0x30, 0x00] with fault := ⟨true, 4, 0x700000FF⟩ }) = some State.reset := by
  decide +kernel

/-- V-RST-2: 0xFFFFFFFF is a RESET, with CW[27:16] = 0xFFF. -/
theorem test_reset_ignores_word : operation (cwOp 0xFFFFFFFF) (cwRsv 0xFFFFFFFF) [] = .ok (.reset 0xFFF []) ∧
    cwCount 0xFFFFFFFF = 65535 ∧ checkWord 0xFFFFFFFF = none := by decide +kernel

/-- V-CMD-4's frame, emitted. -/
theorem test_wireInventory :
    nextOf (exec (.wireInventory 0 0 0 0 0) State.reset) =
      some { State.reset with out := [.bytesOut [0x09, 0xFF, 0x01, 0, 0, 0, 0, 0, 0x01, 0x5A]] } := by decide +kernel

/-- V-CMD-5's frame, emitted. -/
theorem test_wireStopInventory :
    nextOf (exec .wireStopInventory State.reset) =
      some { State.reset with out := [.bytesOut [0x04, 0xFF, 0x93, 0x80, 0x03]] } := by decide +kernel

/-- V-CMD-10's frame, emitted. -/
theorem test_wireSetPower :
    nextOf (exec (.wireSetPower 0x1A) State.reset) =
      some { State.reset with out := [.bytesOut [0x05, 0xFF, 0x2F, 0x1A, 0xA5, 0xB4]] } := by decide +kernel

/-- F1, received and decoded: V-DEC-21's first two events. -/
theorem test_wireInventoryResponse :
    nextOf (exec (.wireInventoryResponse 0x00 0x01 ([0x01, 0x30, 0x00] ++ e12 ++ [0xCE])) State.reset) =
      some { State.reset with out := [.frameOut f1, .tagOut e12 (-50), .consumedOut 22] } := by decide +kernel

/-! ### Faults and the assembler -/

/-- V-FLT-1, and V-FLT-3: IllegalOp ranks above ReservedBits. -/
theorem test_fault_entry :
    nextOf (step (given State.reset 0xB0000000 [])) = some faulted ∧
    nextOf (step (given State.reset 0x00010001 [0x00])) =
      some { State.reset with fault := ⟨true, 1, 0x00010001⟩ } := by decide +kernel

/-- V-FLT-11 and V-FLT-12: a faulted engine ignores an operation, and keeps its first fault. -/
theorem test_faulted_ignores :
    nextOf (step (given faulted 0x10000001 [0x01])) = some faulted ∧
    nextOf (step (given faulted 0x10010000 [])) = some faulted := by decide +kernel

/-- V-CMD-9's line, and FEED as R59 has it. -/
theorem test_assembler :
    (parseLine "BUILD_SET_POWER -30".toList).bind assemble = some [⟨0x60000001, [0xE2]⟩] ∧
    (parseLine "BUILD_SET_POWER 1E".toList).bind assemble = some [⟨0x60000001, [0x1E]⟩] ∧
    (parseLine "FEED 05 00 ; two bytes".toList).bind assemble = some [⟨0x70000002, [0x05, 0x00]⟩, ⟨0xA0000000, []⟩] ∧
    parseLine "; a comment".toList = some .blank := by decide +kernel

/-! ### Witnesses: each meets all hypotheses of the statement it is named after -/

theorem witness_DecodeOfEncode :
    (Instr.reset 0xFFF [0x55]).wellFormed = true ∧ (Instr.wireInventoryResponse 0 1 (List.replicate 245 0)).wellFormed = true := by
  decide +kernel

theorem witness_EncodeOfDecode :
    decode (.op ⟨0x60000001, [0x80]⟩) = .ok (.buildSetPower 0x80) ∧ decode (.response f5) =
      .ok (.wireInventoryResponse 0x00 0xFB [0x00]) ∧
    decode (.command [0x04, 0xFF, 0x93, 0x80, 0x03]) = .ok .wireStopInventory := by decide +kernel

theorem witness_StepRunsDecodedOperation :
    (given faulted 0x50000000 []).port = [⟨0x50000000, []⟩] ∧ decode (.op ⟨0x50000000, []⟩) = .ok .buildStop := by
  decide +kernel

/-- The waiting clauses (no transaction; 0 of 1 byte) and the refusing one (1 byte more than N = 0). -/
theorem witness_StepServesCompleteOperationsOnly :
    State.reset.port = [] ∧
    ((given State.reset 0x10000001 []).port = [⟨0x10000001, []⟩] ∧
      ([] : List Byte).length < (0x10000001 : CommandWord).toNat % 2 ^ 16) ∧
    (given State.reset 0x10000000 [0x00]).port = [⟨0x10000000, [0x00]⟩] ∧
      (0x10000000 : CommandWord).toNat % 2 ^ 16 < [(0x00 : Byte)].length := by decide +kernel

/-- The second clause at a push that fills the buffer, the third at one that overflows it, the fourth one byte short. -/
theorem witness_CheckOrder :
    ((given (holding [0x30, 0x00]) 0x700000FE (List.replicate 254 0)).port = [⟨0x700000FE, List.replicate 254 0⟩] ∧
      (List.replicate 254 (0 : Byte)).length = (0x700000FE : CommandWord).toNat % 2 ^ 16 ∧
      check 0x700000FE (given (holding [0x30, 0x00]) 0x700000FE (List.replicate 254 0)) = none) ∧
    ((given (holding [0x30, 0x00]) 0x700000FF (List.replicate 255 0)).port = [⟨0x700000FF, List.replicate 255 0⟩] ∧
      (List.replicate 255 (0 : Byte)).length = (0x700000FF : CommandWord).toNat % 2 ^ 16 ∧
      check 0x700000FF (given (holding [0x30, 0x00]) 0x700000FF (List.replicate 255 0)) = some .rxOverflow) ∧
    (given State.reset 0x80000001 []).port = [⟨0x80000001, []⟩] ∧
      ([] : List Byte).length < (0x80000001 : CommandWord).toNat % 2 ^ 16 := by decide +kernel

/-- A fault of the word alone and, at its boundary, the one that depends on RXLEN. -/
theorem witness_FaultEntryWritesFaultAlone :
    ((given State.reset 0x10010000 []).port = [⟨0x10010000, []⟩] ∧
      ([] : List Byte).length = (0x10010000 : CommandWord).toNat % 2 ^ 16 ∧
      (given State.reset 0x10010000 []).fault.valid = false ∧
      check 0x10010000 (given State.reset 0x10010000 []) = some .reservedBits) ∧
    (given (holding [0x30, 0x00]) 0x700000FF (List.replicate 255 0)).port = [⟨0x700000FF, List.replicate 255 0⟩] ∧
      (List.replicate 255 (0 : Byte)).length = (0x700000FF : CommandWord).toNat % 2 ^ 16 ∧
      (given (holding [0x30, 0x00]) 0x700000FF (List.replicate 255 0)).fault.valid = false ∧
      check 0x700000FF (given (holding [0x30, 0x00]) 0x700000FF (List.replicate 255 0)) = some .rxOverflow := by
  decide +kernel

/-- An undecodable word with an operand byte, and a decodable one, in a faulted engine. -/
theorem witness_FaultedEngineIgnores :
    ((given faulted 0xB0000001 [0x00]).fault.valid = true ∧
      (given faulted 0xB0000001 [0x00]).port = [⟨0xB0000001, [0x00]⟩] ∧
      [(0x00 : Byte)].length = (0xB0000001 : CommandWord).toNat % 2 ^ 16 ∧
      (0xB0000001 : CommandWord).toNat / 2 ^ 28 ≠ 15) ∧
    (given faulted 0xA0000000 []).fault.valid = true ∧ (given faulted 0xA0000000 []).port = [⟨0xA0000000, []⟩] ∧
      ([] : List Byte).length = (0xA0000000 : CommandWord).toNat % 2 ^ 16 ∧
      (0xA0000000 : CommandWord).toNat / 2 ^ 28 ≠ 15 := by decide

/-- The step of V-RST-1. -/
theorem witness_OnlyResetClearsFault :
    (given faulted 0xF0000000 []).fault.valid = true ∧ step (given faulted 0xF0000000 []) = .next State.reset ∧
    State.reset.fault ≠ (given faulted 0xF0000000 []).fault :=
  ⟨by decide, eq_next (by decide +kernel), by decide⟩

/-- A fault entry, and a RESET. -/
theorem witness_FaultWrittenOnlyByFaultOrReset :
    (step (given State.reset 0xB0000000 []) = .next faulted ∧ faulted.fault ≠ (given State.reset 0xB0000000 []).fault) ∧
    step (given faulted 0xF0000000 []) = .next State.reset ∧ State.reset.fault ≠ (given faulted 0xF0000000 []).fault :=
  ⟨⟨eq_next (by decide +kernel), by decide⟩, eq_next (by decide +kernel), by decide⟩

/-- Two pushes of one byte onto buffers of one byte that hold and receive different values. -/
theorem witness_FaultDependsOnWordAndLength :
    (given (holding [0x01]) 0x70000001 [0x02]).port = [⟨0x70000001, [0x02]⟩] ∧
    (given (holding [0x03]) 0x70000001 [0x04]).port = [⟨0x70000001, [0x04]⟩] ∧
    [(0x02 : Byte)].length = [(0x04 : Byte)].length ∧
    (given (holding [0x01]) 0x70000001 [0x02]).rxLen = (given (holding [0x03]) 0x70000001 [0x04]).rxLen ∧
    (given (holding [0x01]) 0x70000001 [0x02]).rxCap = (given (holding [0x03]) 0x70000001 [0x04]).rxCap ∧
    (given (holding [0x01]) 0x70000001 [0x02]).fault = (given (holding [0x03]) 0x70000001 [0x04]).fault ∧
    step (given (holding [0x01]) 0x70000001 [0x02]) = .next (holding [0x01, 0x02]) ∧
    step (given (holding [0x03]) 0x70000001 [0x04]) = .next (holding [0x03, 0x04]) :=
  ⟨by decide, by decide, by decide, by decide, by decide, by decide, eq_next (by decide +kernel), eq_next (by decide +kernel)⟩

/-- A legal state, with bytes buffered, whose step runs PROCESS. -/
theorem witness_StepKeepsLegalState :
    (given (holding (f1 ++ fS)) 0xA0000000 []).Inv ∧ ∃ t, step (given (holding (f1 ++ fS)) 0xA0000000 []) = .next t :=
  ⟨by decide +kernel, exists_next (by decide +kernel)⟩

/-- A memory in canonical form, in an illegal state (RXLEN is 0). -/
theorem witness_StepKeepsCanonicalMemory :
    Memory.wf ({ given State.reset 0x70000001 [0x07] with rxbuf := [(3, 0x01)] }).rxbuf ∧
    ∃ t, step { given State.reset 0x70000001 [0x07] with rxbuf := [(3, 0x01)] } = .next t :=
  ⟨by decide +kernel, exists_next (by decide +kernel)⟩

theorem witness_EveryOperationCompletes :
    (given (holding f1) 0x80000000 []).Inv ∧ (given (holding f1) 0x80000000 []).PortInDuty := by decide +kernel

/-- For OutIsAppendOnly. -/
theorem witness_OutIsAppendOnly :
    step (given State.reset 0x50000000 []) =
      .next { State.reset with out := [.bytesOut [0x04, 0xFF, 0x93, 0x80, 0x03]] } := eq_next (by decide +kernel)

/-- For CapacityAndPortUnchanged: a push with a transaction still on the port, and a step. -/
theorem witness_CapacityAndPortUnchanged :
    exec (.rxPush [0x07]) (given State.reset 0x80000000 []) = .next (given (holding [0x07]) 0x80000000 []) ∧
    step (given State.reset 0x70000001 [0x07]) = .next (holding [0x07]) :=
  ⟨eq_next (by decide +kernel), eq_next (by decide +kernel)⟩

/-- For each clause of EventsOfEachOperation, the instruction completes in a clear engine; the last clause at V-FLT-1. -/
theorem witness_EventsOfEachOperation :
    State.reset.fault.valid = false ∧
    (∃ t, exec (.crc16 []) State.reset = .next t) ∧ (∃ t, exec (.appendCrc []) State.reset = .next t) ∧
    (∃ t, exec (.buildInventory 0 0 0 0 0) State.reset = .next t) ∧ (∃ t, exec .buildStop State.reset = .next t) ∧
    (∃ t, exec (.buildSetPower 0) State.reset = .next t) ∧ (∃ t, exec (.verifyCrc []) State.reset = .next t) ∧
    (∃ t, exec (.rxPush [0x00]) State.reset = .next t) ∧ (∃ t, exec (.reset 0xFFF []) State.reset = .next t) ∧
    (∃ t, exec .decode State.reset = .next t) ∧ (∃ t, exec .process State.reset = .next t) ∧
    (∃ t, exec (.tagDecode []) State.reset = .next t) ∧
    (given State.reset 0xB0000000 []).port = [⟨0xB0000000, []⟩] ∧
    ([] : List Byte).length = (0xB0000000 : CommandWord).toNat % 2 ^ 16 ∧
    (check 0xB0000000 (given State.reset 0xB0000000 [])).isSome = true ∧
    step (given State.reset 0xB0000000 []) = .next faulted :=
  ⟨by decide, exists_next (by decide +kernel), exists_next (by decide +kernel), exists_next (by decide +kernel),
    exists_next (by decide +kernel), exists_next (by decide +kernel), exists_next (by decide +kernel),
    exists_next (by decide +kernel), exists_next (by decide +kernel), exists_next (by decide +kernel),
    exists_next (by decide +kernel), exists_next (by decide +kernel), by decide, by decide, by decide +kernel,
    eq_next (by decide +kernel)⟩

/-- For EmittingInstructionsFrame: the three wire commands and one host operation, with a byte buffered. -/
theorem witness_EmittingInstructionsFrame :
    (∃ t, exec (.crc16 [0x01]) (holding [0x07]) = .next t) ∧
    (∃ t, exec (.wireInventory 1 2 3 4 5) (holding [0x07]) = .next t) ∧
    (∃ t, exec .wireStopInventory (holding [0x07]) = .next t) ∧ (∃ t, exec (.wireSetPower 6) (holding [0x07]) = .next t) :=
  ⟨exists_next (by decide +kernel), exists_next (by decide +kernel), exists_next (by decide +kernel),
    exists_next (by decide +kernel)⟩

/-- For RxPushFrame: a push that fits, and one that overflows. -/
theorem witness_RxPushFrame :
    (holding [0x07]).rxbuf.wf ∧ exec (.rxPush [0x08]) (holding [0x07]) = .next (holding [0x07, 0x08]) ∧
    ∃ t, exec (.rxPush (List.replicate 256 0)) (holding [0x07]) = .next t :=
  ⟨by decide +kernel, eq_next (by decide +kernel), exists_next (by decide +kernel)⟩

theorem witness_DecodePassFrame :
    (holding (f1 ++ [0x02])).Inv ∧ (∃ t, exec .decode (holding (f1 ++ [0x02])) = .next t) ∧
    ∃ t, exec .process (holding (f1 ++ [0x02])) = .next t :=
  ⟨by decide +kernel, exists_next (by decide +kernel), exists_next (by decide +kernel)⟩

/-- The bounds 1 and 254 of the length. -/
theorem witness_CrcRoundTrip :
    (1 ≤ [(0x02 : Byte)].length ∧ [(0x02 : Byte)].length ≤ 254 ∧ (byteAt [0x02] 0).toNat = [(0x02 : Byte)].length + 1) ∧
    1 ≤ (0xFF :: List.replicate 253 (0 : Byte)).length ∧ (0xFF :: List.replicate 253 (0 : Byte)).length ≤ 254 ∧
    (byteAt (0xFF :: List.replicate 253 0) 0).toNat = (0xFF :: List.replicate 253 (0 : Byte)).length + 1 := by
  decide +kernel

/-- The first and the last byte and bit of the claim, on F1. -/
theorem witness_SingleBitFlipIsDetected :
    crcValid f1 = true ∧ f1.length = (byteAt f1 0).toNat + 1 ∧ 1 ≤ 1 ∧ 21 ≤ (byteAt f1 0).toNat ∧ 0 < 8 ∧ 7 < 8 := by
  decide +kernel

/-- For Crc16Completes, AppendCrcCompletes, VerifyCrcCompletes (its first clause), BuildInventoryCompletes,
BuildStopCompletes, BuildSetPowerCompletes, WireCommandFramesAreEmitted and TagDecodeCompletes, whose only hypothesis is a
clear FAULT: met at reset, and with bytes buffered. -/
theorem witness_clear_engine : State.reset.fault.valid = false ∧ (holding f1).fault.valid = false := by decide

/-- The further clauses of VerifyCrcCompletes: length bytes 0 and 1, an incomplete and a complete frame. -/
theorem witness_VerifyCrcCompletes :
    (byteAt [0x01, 0xFF, 0xFF] 0).toNat ≤ 1 ∧ (byteAt [] 0).toNat ≤ 1 ∧
    (f1.take 21).length < (byteAt (f1.take 21) 0).toNat + 1 ∧ f1.length = (byteAt f1 0).toNat + 1 := by decide +kernel

/-- Payloads of 251 bytes and, for the last clause, of 246. -/
theorem witness_BuiltFramesAreValid :
    (List.replicate 251 (0 : Byte)).length ≤ 251 ∧ (List.replicate 246 (0 : Byte)).length ≤ 246 := by decide +kernel

/-- The push that fills the buffer exactly. -/
theorem witness_RxPushCompletes :
    (holding [0x30, 0x00]).Inv ∧ (holding [0x30, 0x00]).fault.valid = false ∧
    (received (holding [0x30, 0x00])).toOption = some [0x30, 0x00] ∧
    [(0x30 : Byte), 0x00].length + (List.replicate 254 (0 : Byte)).length ≤ (holding [0x30, 0x00]).rxCap := by decide +kernel

/-- One byte more. -/
theorem witness_RxPushOverflowWritesNothing :
    (holding [0x30, 0x00]).fault.valid = false ∧ (List.replicate 255 (0 : Byte)).length ≤ 65535 ∧
    (holding [0x30, 0x00]).rxCap < (holding [0x30, 0x00]).rxLen.toNat + (List.replicate 255 (0 : Byte)).length := by
  decide +kernel

/-- Each clause at its bounds: 4 and 5 bytes left; length bytes 3, 251, 4 and 250; a candidate one byte short; candidates
with and without their CRC. -/
theorem witness_DecodePassSteps :
    [(0 : Byte), 0, 0, 0].length < 5 ∧
    (5 ≤ [(0x03 : Byte), 0, 0, 0, 0].length ∧ (byteAt [0x03, 0, 0, 0, 0] 0).toNat < 4) ∧
    (5 ≤ [(0xFB : Byte), 0, 0, 0, 0].length ∧ 250 < (byteAt [0xFB, 0, 0, 0, 0] 0).toNat) ∧
    (5 ≤ [(0x05 : Byte), 0, 0, 0, 0].length ∧ 4 ≤ (byteAt [0x05, 0, 0, 0, 0] 0).toNat ∧
      (byteAt [0x05, 0, 0, 0, 0] 0).toNat ≤ 250 ∧
      [(0x05 : Byte), 0, 0, 0, 0].length < (byteAt [0x05, 0, 0, 0, 0] 0).toNat + 1) ∧
    (5 ≤ (0xFA :: List.replicate 249 (0 : Byte)).length ∧ (byteAt (0xFA :: List.replicate 249 0) 0).toNat ≤ 250 ∧
      (0xFA :: List.replicate 249 (0 : Byte)).length < (byteAt (0xFA :: List.replicate 249 0) 0).toNat + 1) ∧
    (4 ≤ (byteAt [0x04, 0xFF, 0x93, 0x80, 0x03] 0).toNat ∧ (byteAt [0x04, 0xFF, 0x93, 0x80, 0x03] 0).toNat ≤ 250 ∧
      [(0x04 : Byte), 0xFF, 0x93, 0x80, 0x03].length = (byteAt [0x04, 0xFF, 0x93, 0x80, 0x03] 0).toNat + 1 ∧
      crcValid [0x04, 0xFF, 0x93, 0x80, 0x03] = true) ∧
    4 ≤ (byteAt [0x04, 0, 0, 0, 0] 0).toNat ∧ (byteAt [0x04, 0, 0, 0, 0] 0).toNat ≤ 250 ∧
      [(0x04 : Byte), 0, 0, 0, 0].length = (byteAt [0x04, 0, 0, 0, 0] 0).toNat + 1 ∧
      crcValid [0x04, 0, 0, 0, 0] = false := by decide +kernel

/-- A pass that finds frames, for the last clause of FramesComeFromConsumedBytes. -/
theorem witness_FramesComeFromConsumedBytes : (decodeScan (fS ++ f1 ++ fS)).2 = [fS, f1, fS] := by decide +kernel

/-- For DecodeCompletes and ProcessCompletes. -/
theorem witness_DecodeCompletes :
    (holding (f1 ++ fS)).Inv ∧ (holding (f1 ++ fS)).fault.valid = false ∧
    (received (holding (f1 ++ fS))).toOption = some (f1 ++ fS) := by decide +kernel

/-- Both instructions, and both ways a pass can end: 2 bytes left, and one partial candidate. -/
theorem witness_RetainedAfterDecode :
    (holding (f1 ++ [0x02, 0x00])).Inv ∧ (holding (f1 ++ [0x02, 0x00])).fault.valid = false ∧
    (∃ t, exec .decode (holding (f1 ++ [0x02, 0x00])) = .next t) ∧
    (holding (0xF0 :: f1)).Inv ∧ (holding (0xF0 :: f1)).fault.valid = false ∧
    ∃ t, exec .process (holding (0xF0 :: f1)) = .next t :=
  ⟨by decide +kernel, by decide, exists_next (by decide +kernel), by decide +kernel, by decide,
    exists_next (by decide +kernel)⟩

/-- The first and the last split of F1 (V-L1-4). -/
theorem witness_SplitReads :
    ∀ k ∈ [1, 21],
      let s := { State.reset with
        port := [⟨BitVec.ofNat 32 (0x70000000 + k), f1.take k⟩, ⟨0x80000000, []⟩,
          ⟨BitVec.ofNat 32 (0x70000000 + (f1.length - k)), f1.drop k⟩, ⟨0x80000000, []⟩] }
      s.Inv ∧ s.fault.valid = false ∧ s.rxLen = 0 ∧ validFrame f1 ∧ 1 ≤ k ∧ k < f1.length := by decide +kernel

/-- The garbage, the frame and the tail of V-L1-3. -/
theorem witness_Resynchronization :
    validFrame f1 ∧
    ∀ j < [(0x00 : Byte), 0x01, 0xFF, 0x03].length,
      4 ≤ (byteAt ([0x00, 0x01, 0xFF, 0x03] ++ f1 ++ [0x02, 0x00]) j).toNat →
      (byteAt ([0x00, 0x01, 0xFF, 0x03] ++ f1 ++ [0x02, 0x00]) j).toNat ≤ 250 →
      j + (byteAt ([0x00, 0x01, 0xFF, 0x03] ++ f1 ++ [0x02, 0x00]) j).toNat + 1 ≤
        ([0x00, 0x01, 0xFF, 0x03] ++ f1 ++ [0x02, 0x00]).length ∧
      crcValid (slice ([0x00, 0x01, 0xFF, 0x03] ++ f1 ++ [0x02, 0x00]) j
        (j + (byteAt ([0x00, 0x01, 0xFF, 0x03] ++ f1 ++ [0x02, 0x00]) j).toNat + 1)) = false := by decide +kernel

/-- Garbage with an in-range byte, so that the hypothesis of Resynchronization is used: V-DEC-3. -/
theorem witness_Resynchronization_in_range :
    4 ≤ (byteAt ([0x0A] ++ f1) 0).toNat ∧ (byteAt ([0x0A] ++ f1) 0).toNat ≤ 250 ∧
    0 + (byteAt ([0x0A] ++ f1) 0).toNat + 1 ≤ ([0x0A] ++ f1).length ∧
    crcValid (slice ([0x0A] ++ f1) 0 (0 + (byteAt ([0x0A] ++ f1) 0).toNat + 1)) = false := by decide +kernel

/-- Pieces of RX_CAP - 250 = 6 bytes. -/
theorem witness_StreamMayBeSplitAnywhere :
    let pieces := [f1.take 6, (f1.drop 6).take 6, (f1.drop 12).take 6, f1.drop 18]
    let s := { State.reset with port := pushAndDecode pieces }
    s.Inv ∧ s.fault.valid = false ∧ s.rxLen = 0 ∧ (∀ p ∈ pieces, p.length ≤ s.rxCap - 250) ∧
      s.port = pushAndDecode pieces := by decide +kernel

/-- P4's in-range noise byte, with exactly 250 bytes from the frame's offset on. -/
theorem witness_StallIsBounded :
    validFrame f1 ∧ [(0x30 : Byte)].length + 250 ≤ ([0x30] ++ f1 ++ List.replicate 228 0).length ∧
    ∀ j < [(0x30 : Byte)].length, 4 ≤ (byteAt ([0x30] ++ f1 ++ List.replicate 228 0) j).toNat →
      (byteAt ([0x30] ++ f1 ++ List.replicate 228 0) j).toNat ≤ 250 →
      [(0x30 : Byte)].length < j + (byteAt ([0x30] ++ f1 ++ List.replicate 228 0) j).toNat + 1 →
      crcValid (slice ([0x30] ++ f1 ++ List.replicate 228 0) j
        (j + (byteAt ([0x30] ++ f1 ++ List.replicate 228 0) j).toNat + 1)) = false := by decide +kernel

/-- A push of RX_CAP - 250 = 6 bytes behind a stalled pass. -/
theorem witness_PushAfterDecodeNeverOverflows :
    (holding (0xF0 :: f1)).Inv ∧ (holding (0xF0 :: f1)).fault.valid = false ∧
    exec .decode (holding (0xF0 :: f1)) = .next { holding (0xF0 :: f1) with out := [.consumedOut 0] } ∧
    (List.replicate 6 (0 : Byte)).length ≤ ({ holding (0xF0 :: f1) with out := [.consumedOut 0] } : State).rxCap - 250 :=
  ⟨by decide +kernel, by decide, eq_next (by decide +kernel), by decide⟩

theorem witness_TagGate : tagRecords f1 ≠ [] := by decide +kernel

/-- The two PC words of the epcLen table with W = 6. -/
theorem witness_EpcLengthFromPc : (0x3000 : Half).toNat / 2 ^ 11 = (0x3400 : Half).toNat / 2 ^ 11 := by decide

/-- F1's record with its own count, and F4's count of 2 with nothing behind it. -/
theorem witness_TagRecordsDecodeTheirEncoding :
    let records := [(⟨0x3000, e12, 0xCE⟩ : WireRecord)]
    (∀ r ∈ records, r.epc.length = epcLen r.pc) ∧ (0x01 : Byte).toNat = records.length ∧
    (records.length < (0x02 : Byte).toNat ∧ ([] : List Byte).length < 2) ∧
    ((0x01 : Byte) :: (records.flatMap WireRecord.bytes ++ [])).length + 5 ≤ 255 ∧
    responseFrame 0x00 0x01 (0x01 :: (records.flatMap WireRecord.bytes ++ [])) = f1 := by decide +kernel

/-- A record, for the second clause of TagRecordBounds. -/
theorem witness_TagRecordBounds : (e12, (-50 : Int)) ∈ tagRecords f1 := by decide +kernel

/-- Each clause: 4 bytes; a byte short; a frame and the same frame with another trailer and a byte behind it. -/
theorem witness_TagDecodeIgnoresTrailerAndTail :
    [(0x15 : Byte), 0x00, 0x01, 0x01].length < 5 ∧ (f1.take 21).length < (byteAt (f1.take 21) 0).toNat + 1 ∧
    (byteAt f1 0).toNat + 1 ≤ f1.length ∧ (byteAt f1 0).toNat + 1 ≤ (f1.set 21 0x00 ++ [0x55]).length ∧
    ∀ k, k < 5 ∨ k < (byteAt f1 0).toNat - 1 → byteAt f1 k = byteAt (f1.set 21 0x00 ++ [0x55]) k := by
  refine ⟨by decide, by decide +kernel, by decide +kernel, by decide +kernel, fun k h => ?_⟩
  have h20 : (byteAt f1 0).toNat = 21 := by decide +kernel
  have hk : k < 20 := by omega
  have all : ∀ k < 20, byteAt f1 k = byteAt (f1.set 21 0x00 ++ [0x55]) k := by decide +kernel
  exact all k hk

/-- A frame that just fits behind what is buffered, one behind nothing, one that does not fit, and a faulted engine. -/
theorem witness_WireInventoryResponseIsDecoded :
    ((holding (0xFA :: List.replicate 248 0)).Inv ∧ (holding (0xFA :: List.replicate 248 0)).fault.valid = false ∧
      (received (holding (0xFA :: List.replicate 248 0))).toOption = some (0xFA :: List.replicate 248 0) ∧
      [(0x00 : Byte)].length + 5 ≤ 250 ∧
      (0xFA :: List.replicate 248 (0 : Byte)).length + ([(0x00 : Byte)].length + 6) ≤
        (holding (0xFA :: List.replicate 248 0)).rxCap) ∧
    (State.reset.Inv ∧ State.reset.fault.valid = false ∧ (received State.reset).toOption = some []) ∧
    (holding (0xFA :: List.replicate 249 0)).rxCap <
      (holding (0xFA :: List.replicate 249 0)).rxLen.toNat + ([(0x00 : Byte)].length + 6) ∧
    (holding (0xFA :: List.replicate 249 0)).fault.valid = false ∧ faulted.fault.valid = true := by decide +kernel

/-- V-RST-1's word on a faulted engine. -/
theorem witness_ResetClears :
    (given faulted 0xF0000000 []).port = [⟨0xF0000000, []⟩] ∧
    ([] : List Byte).length = (0xF0000000 : CommandWord).toNat % 2 ^ 16 ∧
    (0xF0000000 : CommandWord).toNat / 2 ^ 28 = 15 := by decide +kernel

/-- The bounds of the power, and a byte count within 65535. -/
theorem witness_AssemblerRules :
    [(0x00 : Byte)].length ≤ 65535 ∧ (-128 : Int) ≤ -128 ∧ (-128 : Int) ≤ 127 ∧ (-128 : Int) ≤ 127 ∧ (127 : Int) ≤ 127 := by
  decide

end Sys2Proof.Tests
end

section
/-! SUPPORT. For the statements of 00_scope.md: the five shapes an instruction's meaning has, that every instruction
completes in a legal state and leads to one, and which FAULT register a step leaves. -/

namespace Sys2Proof.Machine

/-! ### The step on the head of the port -/

theorem fetch_complete {s : State} {t : Transaction} {rest : List Transaction} (hp : s.port = t :: rest)
    (hl : t.data.length = cwCount t.cw) : fetch s = .taken t (s.setPort rest) := by
  simp [fetch, hp, hl]

/-- A transaction that decodes is run by the step. -/
theorem step_of_decodeOp {s : State} {t : Transaction} {rest : List Transaction} {i : Instr} (hp : s.port = t :: rest)
    (hd : decodeOp t = .ok i) : step s = exec i (s.setPort rest) := by
  obtain ⟨hl, -, -⟩ := decodeOp_ok hd
  simp [step, fetch_complete hp hl, decode, hd]

/-! ### The five shapes of an instruction -/

/-- What an instruction's meaning is made of: events that carry legal payloads, a push, a decode pass whose events are
legal for frames of the length their length byte says, a RESET, or the wire row that pushes and processes (log 2). -/
inductive ExecShape (i : Instr) : Prop where
  | emits (es : List Event) (legal : es.all Event.legal = true)
      (eq : ∀ s, exec i s = unlessFaulted s (.next (s.emit es)))
  | pushes (data : List Byte) (eq : i = .rxPush data)
  | decodes (events : List Byte → List Event)
      (legal : ∀ f, f.length = (byteAt f 0).toNat + 1 → (events f).all Event.legal = true)
      (eq : ∀ s, exec i s = unlessFaulted s (decodePass events s))
  | resets (rsv : BitVec 12) (discarded : List Byte) (eq : i = .reset rsv discarded)
  | receives (address status : Byte) (body : List Byte) (eq : i = .wireInventoryResponse address status body)

theorem tagRecords_rssi_bounds {f : List Byte} {r : List Byte × Int} (h : r ∈ tagRecords f) :
    -128 ≤ r.2 ∧ r.2 ≤ 127 := by
  simp only [tagRecords] at h
  split_ifs at h with hhdr hlen hcmd hstatus hmin
  case neg =>
    obtain ⟨-, hrecords⟩ :=
      tagLoop_bounds f ((byteAt f 0).toNat - 1) (byteAt f 4).toNat (config.hdrLen + 1) (by omega)
    obtain ⟨-, -, -, -, hrssi⟩ := hrecords r h
    exact hrssi
  all_goals cases h

theorem tagEvents_legal (f : List Byte) : (tagEvents f).all Event.legal = true := by
  simp only [tagEvents, List.all_map, List.all_eq_true, Function.comp_apply, Event.legal, decide_eq_true_eq]
  exact fun r hr => tagRecords_rssi_bounds hr

theorem processEvents_legal {f : List Byte} (h : f.length = (byteAt f 0).toNat + 1) :
    (Event.frameOut f :: tagEvents f).all Event.legal = true := by
  simp [Event.legal, h, tagEvents_legal]

theorem execShape (i : Instr) : ExecShape i := by
  cases i with
  | crc16 data => exact .emits _ rfl fun _ => rfl
  | appendCrc data => exact .emits _ rfl fun _ => rfl
  | verifyCrc frame => exact .emits _ rfl fun _ => rfl
  | buildInventory => exact .emits _ rfl fun _ => rfl
  | buildStop => exact .emits _ rfl fun _ => rfl
  | buildSetPower => exact .emits _ rfl fun _ => rfl
  | rxPush data => exact .pushes data rfl
  | decode => exact .decodes _ (fun f h => by simp [Event.legal, h]) fun _ => rfl
  | tagDecode frame => exact .emits _ (tagEvents_legal frame) fun _ => rfl
  | process => exact .decodes _ (fun _ => processEvents_legal) fun _ => rfl
  | reset rsv discarded => exact .resets rsv discarded rfl
  | wireInventory => exact .emits _ rfl fun _ => rfl
  | wireStopInventory => exact .emits _ rfl fun _ => rfl
  | wireSetPower => exact .emits _ rfl fun _ => rfl
  | wireInventoryResponse address status body => exact .receives address status body rfl

/-! ### The updates keep a legal state -/

theorem State.Inv.emit {s : State} (h : s.Inv) {es : List Event} (hes : es.all Event.legal = true) :
    (s.emit es).Inv := by
  obtain ⟨hmin, hmax, hlen, hbuf, hfault, hout⟩ := h
  exact ⟨hmin, hmax, hlen, hbuf, hfault, by simp only [State.emit_out, List.all_append, hout, hes, Bool.and_self]⟩

theorem State.Inv.setPort {s : State} (h : s.Inv) (p : List Transaction) : (s.setPort p).Inv := h

theorem State.Inv.setFault {s : State} (h : s.Inv) {f : FaultReg} (hf : f.legal = true) : (s.setFault f).Inv := by
  obtain ⟨hmin, hmax, hlen, hbuf, -, hout⟩ := h
  exact ⟨hmin, hmax, hlen, hbuf, hf, hout⟩

/-- Storing a stream that fits, with its length, keeps a legal state. -/
theorem State.Inv.setRx {s : State} (h : s.Inv) {bs : List Byte} (hfit : bs.length ≤ s.rxCap) :
    (s.setRx (Memory.cells 0 bs) bs.length).Inv := by
  obtain ⟨hmin, hmax, -, -, hfault, hout⟩ := h
  exact .of_holds (Holds.setRx s bs hfit hmax) hmin hmax hfault hout

theorem faultEntry_legal (c : Cause) (cw : CommandWord) : FaultReg.legal ⟨true, causeCode c, cw⟩ = true := by
  cases c <;> rfl

theorem State.Inv.raiseFault {s : State} (h : s.Inv) (c : Cause) (cw : CommandWord) : (raiseFault c cw s).Inv := by
  rw [raiseFault_eq]
  split
  · exact h
  · exact h.setFault (faultEntry_legal c cw)

theorem State.Inv.resetEngine {s : State} (h : s.Inv) : (resetEngine s).Inv :=
  (h.setRx (bs := []) (Nat.zero_le _)).setFault rfl

/-! ### Every instruction completes in a legal state -/

/-- The outcome is a legal next state, with the port of `s`. -/
def CompletesLegally (s : State) (o : Host.Outcome State Fault Refusal) : Prop :=
  ∃ t, o = .next t ∧ t.Inv ∧ t.port = s.port

theorem CompletesLegally.unlessFaulted {s : State} (h : s.Inv) {k : Host.Outcome State Fault Refusal}
    (hk : s.fault.valid = false → CompletesLegally s k) : CompletesLegally s (unlessFaulted s k) := by
  cases hv : s.fault.valid with
  | true => exact ⟨s, unlessFaulted_of_valid s hv, h, rfl⟩
  | false => rw [unlessFaulted_of_clear s hv]; exact hk hv

theorem decodePassEvents_legal {events : List Byte → List Event} (buf : List Byte)
    (hev : ∀ f, f.length = (byteAt f 0).toNat + 1 → (events f).all Event.legal = true) :
    ((decodeScan buf).2.flatMap events ++ [Event.consumedOut (decodeScan buf).1]).all Event.legal = true := by
  have hframes : ∀ f ∈ (decodeScan buf).2, (events f).all Event.legal = true := fun f hf => by
    obtain ⟨-, -, -, hlen, -⟩ := (decodeScan_sound buf).2 f hf
    exact hev f hlen
  simpa [Event.legal] using hframes

theorem decodePass_completesLegally {s : State} (h : s.Inv) {events : List Byte → List Event}
    (hev : ∀ f, f.length = (byteAt f 0).toNat + 1 → (events f).all Event.legal = true) :
    CompletesLegally s (decodePass events s) := by
  have hh := h.holds
  refine ⟨_, hh.decodePass events, ?_, rfl⟩
  rw [← List.length_drop]
  refine (h.emit (decodePassEvents_legal _ hev)).setRx ?_
  rw [List.length_drop]
  exact le_trans (Nat.sub_le _ _) hh.fits

theorem execRxPush_completesLegally {s : State} (h : s.Inv) (data : List Byte) :
    CompletesLegally s (execRxPush data s) := by
  refine .unlessFaulted h fun hv => ?_
  have hh := h.holds
  split
  · exact ⟨_, rfl, h.raiseFault _ _, raiseFault_port _ _ _⟩
  · next hover =>
    have hfit : (s.rxbuf.map Prod.snd ++ data).length ≤ s.rxCap := by
      simpa [overflows, hh.len] using hover
    rw [hh.append (by simpa using hfit), ← List.length_append]
    exact ⟨_, rfl, h.setRx hfit, rfl⟩

/-- In a legal state every instruction answers a legal next state and leaves the port alone (R13). -/
theorem exec_completesLegally {s : State} (h : s.Inv) (i : Instr) : CompletesLegally s (exec i s) := by
  cases execShape i with
  | emits es legal eq => rw [eq]; exact .unlessFaulted h fun _ => ⟨_, rfl, h.emit legal, rfl⟩
  | pushes data eq => subst eq; exact execRxPush_completesLegally h data
  | decodes events legal eq => rw [eq]; exact .unlessFaulted h fun _ => decodePass_completesLegally h legal
  | resets rsv discarded eq => subst eq; exact ⟨_, rfl, h.resetEngine, rfl⟩
  | receives address status body eq =>
    subst eq
    obtain ⟨t, ht, hti, htp⟩ := execRxPush_completesLegally h (responseFrame address status body)
    have hprocess : CompletesLegally t (execProcess t) :=
      .unlessFaulted hti fun _ => decodePass_completesLegally hti fun _ => processEvents_legal
    obtain ⟨u, hu, hui, hup⟩ := hprocess
    exact ⟨u, by simp only [exec, execWireInventoryResponse, ht, hu], hui, hup.trans htp⟩

/-- From a legal state a step answers a legal state, unless the oldest transaction holds surplus bytes; it leaves the port
as it is or takes that transaction off. -/
theorem step_of_inv {s : State} (h : s.Inv) :
    (fetch s = .overrun ∧ step s = .refused .hostMove) ∨
      ∃ t, step s = .next t ∧ t.Inv ∧ (t.port = s.port ∨ t.port = s.port.tail) := by
  rcases step_cases s with ⟨hs, -⟩ | ⟨hs, hf⟩ | ⟨op, rest, hp, -, ⟨i, -, -, hs⟩ | ⟨c, -, hs⟩⟩
  · exact .inr ⟨s, hs, h, .inl rfl⟩
  · exact .inl ⟨hf, hs⟩
  · obtain ⟨t, ht, hti, htp⟩ := exec_completesLegally (h.setPort rest) i
    exact .inr ⟨t, hs.trans ht, hti, .inr (by rw [htp, hp]; rfl)⟩
  · exact .inr ⟨_, hs, (h.setPort rest).raiseFault c op.cw, .inr (by rw [raiseFault_port, hp]; rfl)⟩

/-- While the host keeps its duty, no transaction holds surplus bytes. -/
theorem State.PortInDuty.fetch_ne_overrun {s : State} (h : s.PortInDuty) : fetch s ≠ .overrun := by
  unfold fetch
  cases hp : s.port with
  | nil => simp
  | cons t rest =>
    have ht := h t (hp ▸ List.mem_cons_self)
    simp only [not_lt.2 ht, if_false]
    split <;> simp

/-! ### The FAULT register after a step -/

theorem unlessFaulted_next {s t : State} {k : Host.Outcome State Fault Refusal} (h : unlessFaulted s k = .next t) :
    (s.fault.valid = true ∧ t = s) ∨ (s.fault.valid = false ∧ k = .next t) := by
  cases hv : s.fault.valid with
  | true => rw [unlessFaulted_of_valid s hv] at h; cases h; exact .inl ⟨rfl, rfl⟩
  | false => rw [unlessFaulted_of_clear s hv] at h; exact .inr ⟨rfl, h⟩

theorem append_fault {s t : State} {data : List Byte} (h : append data s = .ok t) : t.fault = s.fault := by
  obtain ⟨-, rfl⟩ := append_ok h
  rfl

theorem decodePass_fault {events : List Byte → List Event} {s t : State} (h : decodePass events s = .next t) :
    t.fault = s.fault := by
  obtain ⟨buf, -, hc⟩ := decodePass_next h
  obtain ⟨kept, -, rfl⟩ := compact_ok hc
  rfl

/-- The FAULT register after RX_PUSH: RxOverflow where the bytes do not fit and FAULT is clear, else as before. -/
theorem execRxPush_fault {s t : State} {data : List Byte} (h : execRxPush data s = .next t) :
    t.fault =
      if overflows s data.length then (raiseFault .rxOverflow (makeCw 0x7 0 data.length) s).fault else s.fault := by
  rcases unlessFaulted_next h with ⟨hv, rfl⟩ | ⟨-, hk⟩
  · rw [raiseFault_of_valid _ hv, ite_self]
  · split at hk
    · next ho => cases hk; rw [if_pos ho]
    · next ho => rw [if_neg ho]; exact append_fault (finish_next hk)

/-- Only RX_PUSH, RESET and the wire row that pushes write FAULT. -/
theorem exec_fault_of_ne {s t : State} {i : Instr} (hpush : ∀ data, i ≠ .rxPush data)
    (hreset : ∀ rsv discarded, i ≠ .reset rsv discarded)
    (hwire : ∀ address status body, i ≠ .wireInventoryResponse address status body) (h : exec i s = .next t) :
    t.fault = s.fault := by
  cases execShape i with
  | emits es legal eq =>
    rcases unlessFaulted_next ((eq s).symm.trans h) with ⟨-, rfl⟩ | ⟨-, hk⟩
    · rfl
    · cases hk; rfl
  | pushes data eq => exact absurd eq (hpush data)
  | decodes events legal eq =>
    rcases unlessFaulted_next ((eq s).symm.trans h) with ⟨-, rfl⟩ | ⟨-, hk⟩
    · rfl
    · exact decodePass_fault hk
  | resets rsv discarded eq => exact absurd eq (hreset rsv discarded)
  | receives address status body eq => exact absurd eq (hwire address status body)

/-- OP 0xF selects RESET and OP 7 RX_PUSH; every other operation is neither, and no operation is a wire row. -/
theorem operation_cases {op : BitVec 4} {rsv : BitVec 12} {data : List Byte} {i : Instr}
    (h : operation op rsv data = .ok i) :
    (op = 0xF ∧ i = .reset rsv data) ∨ (op = 0x7 ∧ i = .rxPush data) ∨
    (op ≠ 0xF ∧ op ≠ 0x7 ∧ (∀ d, i ≠ .rxPush d) ∧ (∀ r d, i ≠ .reset r d) ∧
      ∀ a st b, i ≠ .wireInventoryResponse a st b) := by
  by_cases hF : op = 0xF
  · subst hF; cases h; exact .inl ⟨rfl, rfl⟩
  by_cases h7 : op = 0x7
  · subst h7; cases h; exact .inr (.inl ⟨rfl, rfl⟩)
  refine .inr (.inr ⟨hF, h7, ?_⟩)
  unfold operation at h
  split at h
  case h_7 e => exact absurd (BitVec.eq_of_toNat_eq e) h7
  case h_11 e => exact absurd (BitVec.eq_of_toNat_eq e) hF
  case h_4 | h_6 => split at h <;> cases h; simp
  all_goals cases h
  all_goals simp

theorem check_of_checkWord_some {cw : CommandWord} {c : Cause} (h : checkWord cw = some c) (s : State) :
    check cw s = some c := by simp [check, h]

theorem check_of_op_rxPush {cw : CommandWord} (hop : cwOp cw = 0x7) (hc : checkWord cw = none) (s : State) :
    check cw s = if overflows s (cwCount cw) then some .rxOverflow else none := by simp [check, hop, hc]

theorem check_of_op_ne_rxPush {cw : CommandWord} (hop : cwOp cw ≠ 0x7) (hc : checkWord cw = none) (s : State) :
    check cw s = none := by simp only [check, hc, hop, false_and, if_false]

/-- The check of R111 depends on the word, RXLEN and RX_CAP. -/
theorem check_congr {s t : State} (cw : CommandWord) (hlen : s.rxLen = t.rxLen) (hcap : s.rxCap = t.rxCap) :
    check cw s = check cw t := by
  have hover : overflows s (cwCount cw) = overflows t (cwCount cw) := by simp only [overflows, hlen, hcap]
  simp only [check, hover]

/-- A word of OP 7 that passes the check has RSV 0, so it is the word RX_PUSH rebuilds from its operand count (log 15). -/
theorem makeCw_rxPush {cw : CommandWord} (hop : cwOp cw = 0x7) (hc : checkWord cw = none) :
    makeCw 0x7 0 (cwCount cw) = cw := by
  have hrsv : cwRsv cw = 0 := by simpa [checkWord, hop] using hc
  rw [← hop, ← hrsv, makeCw_fields]

theorem raiseFault_fault (c : Cause) (cw : CommandWord) (s : State) :
    (raiseFault c cw s).fault = if s.fault.valid then s.fault else ⟨true, causeCode c, cw⟩ := by
  rw [raiseFault_eq]; split <;> rfl

/-- The FAULT register that serving the word `cw` leaves: clear after RESET, else what fault entry makes of the cause
that the check of R111 gives, if any. -/
def faultAfterServing (cw : CommandWord) (s : State) : FaultReg :=
  if cwOp cw = 0xF then .clear
  else
    match check cw s with
    | some c => (raiseFault c cw s).fault
    | none => s.fault

theorem faultAfterServing_congr {s t : State} (cw : CommandWord) (hlen : s.rxLen = t.rxLen)
    (hcap : s.rxCap = t.rxCap) (hfault : s.fault = t.fault) : faultAfterServing cw s = faultAfterServing cw t := by
  simp only [faultAfterServing, check_congr cw hlen hcap, raiseFault_fault, hfault]

theorem faultAfterServing_of_checkWord_some {cw : CommandWord} {c : Cause} (h : checkWord cw = some c) (s : State) :
    faultAfterServing cw s = (raiseFault c cw s).fault := by
  have hop : cwOp cw ≠ 0xF := fun hop => by simp [checkWord, hop] at h
  rw [faultAfterServing, if_neg hop, check_of_checkWord_some h]

/-- The operation that a word and its operand bytes select leaves the FAULT register of R110 to R114. -/
theorem exec_fault_of_operation {cw : CommandWord} {data : List Byte} {i : Instr} {s t : State}
    (hl : data.length = cwCount cw) (hc : checkWord cw = none) (ho : operation (cwOp cw) (cwRsv cw) data = .ok i)
    (h : exec i s = .next t) : t.fault = faultAfterServing cw s := by
  rcases operation_cases ho with ⟨hop, rfl⟩ | ⟨hop, rfl⟩ | ⟨hF, h7, hpush, hreset, hwire⟩
  · cases h
    rw [faultAfterServing, if_pos hop, resetEngine_fault]
  · have hF : cwOp cw ≠ 0xF := by simp [hop]
    have hserve : faultAfterServing cw s =
        if overflows s (cwCount cw) then (raiseFault .rxOverflow cw s).fault else s.fault := by
      rw [faultAfterServing, if_neg hF, check_of_op_rxPush hop hc]
      cases overflows s (cwCount cw) <;> rfl
    rw [execRxPush_fault h, hserve, hl, makeCw_rxPush hop hc]
  · rw [exec_fault_of_ne hpush hreset hwire h, faultAfterServing, if_neg hF, check_of_op_ne_rxPush h7 hc]

/-- The FAULT register after a step: served where the oldest transaction is complete, else as before. -/
theorem step_fault {s u : State} {t : Transaction} {rest : List Transaction} (hp : s.port = t :: rest)
    (h : step s = .next u) :
    u.fault = if t.data.length = cwCount t.cw then faultAfterServing t.cw s else s.fault := by
  have hserve : faultAfterServing t.cw (s.setPort rest) = faultAfterServing t.cw s :=
    faultAfterServing_congr t.cw rfl rfl rfl
  rcases step_cases s with ⟨hs, hf⟩ | ⟨hs, -⟩ | ⟨op, rest', hp', hl, hs⟩
  · have hl : t.data.length ≠ cwCount t.cw := fun hl => by rw [fetch_complete hp hl] at hf; cases hf
    cases hs.symm.trans h
    rw [if_neg hl]
  · cases hs.symm.trans h
  · cases hp.symm.trans hp'
    rw [if_pos hl, ← hserve]
    rcases hs with ⟨i, hc, ho, hs⟩ | ⟨c, hc, hs⟩
    · exact exec_fault_of_operation hl hc ho (hs.symm.trans h)
    · cases hs.symm.trans h
      rw [faultAfterServing_of_checkWord_some hc]

end Sys2Proof.Machine
end

section
/-! The obligations of 00_scope.md. -/

namespace Sys2Proof.Machine

/-- Settles O15: the step lemma of the legal states. -/
theorem stepKeepsLegalState : Obligations.StepKeepsLegalState := by
  intro s t hs hstep
  rcases step_of_inv hs with ⟨-, hover⟩ | ⟨u, hu, hui, -⟩
  · cases hover.symm.trans hstep
  · cases hu.symm.trans hstep
    exact hui

/-- Settles O17: in a legal state every instruction completes, and so does the step while the host keeps its duty, which
taking a transaction off the port cannot break. -/
theorem everyOperationCompletes : Obligations.EveryOperationCompletes := by
  refine ⟨fun s i hs => ?_, fun s hs hduty => ?_⟩
  · obtain ⟨t, ht, -, -⟩ := exec_completesLegally hs i
    exact ⟨t, ht⟩
  · rcases step_of_inv hs with ⟨hover, -⟩ | ⟨t, ht, -, hport⟩
    · exact absurd hover hduty.fetch_ne_overrun
    · refine ⟨t, ht, fun op hop => hduty op ?_⟩
      rcases hport with hport | hport
      · exact hport ▸ hop
      · exact List.mem_of_mem_tail (hport ▸ hop)

/-- Settles O12: the FAULT register after a step is a function of the word, the operand count, RXLEN, RX_CAP and FAULT. -/
theorem faultDependsOnWordAndLength : Obligations.FaultDependsOnWordAndLength := by
  intro s₁ s₂ u₁ u₂ t₁ t₂ r₁ r₂ hp₁ hp₂ hcw hdata hlen hcap hfault hu₁ hu₂
  rw [step_fault hp₁ hu₁, step_fault hp₂ hu₂, hcw, hdata, faultAfterServing_congr t₂.cw hlen hcap hfault, hfault]

/-- Settles O4: a transaction that decodes is complete, so the step takes it. -/
theorem stepRunsDecodedOperation : Obligations.StepRunsDecodedOperation :=
  fun _ _ _ _ hport hdecode => step_of_decodeOp hport hdecode

/-- Settles O13: the power-on state holds the empty stream, and its port is empty. -/
theorem resetStateIsLegal : Obligations.ResetStateIsLegal := by
  have hempty : Holds State.reset [] := ⟨rfl, rfl, Nat.zero_le _⟩
  exact ⟨.of_holds hempty (by decide) (by decide) rfl rfl, fun _ h => absurd h List.not_mem_nil⟩

end Sys2Proof.Machine
end

section
/-! SUPPORT. For the statements of 10_state.md: what every instruction leaves of the state it started from, and one lemma
each for all that an emitting instruction, RX_PUSH, a decode pass and the serving of a word can come to. -/

namespace Sys2Proof.Machine

/-! ### What no instruction changes -/

/-- `t` has the capacity and the port of `s`, and every event of `s` at the front of its OUT. -/
structure Extends (s t : State) : Prop where
  cap : t.rxCap = s.rxCap
  port : t.port = s.port
  out : s.out <+: t.out

theorem Extends.refl (s : State) : Extends s s := ⟨rfl, rfl, List.prefix_rfl⟩

theorem Extends.trans {s t u : State} (hst : Extends s t) (htu : Extends t u) : Extends s u :=
  ⟨htu.cap.trans hst.cap, htu.port.trans hst.port, hst.out.trans htu.out⟩

theorem Extends.emit (s : State) (es : List Event) : Extends s (s.emit es) := ⟨rfl, rfl, List.prefix_append _ _⟩

theorem Extends.setRx (s : State) (m : Memory) (n : Nat) : Extends s (s.setRx m n) := ⟨rfl, rfl, List.prefix_rfl⟩

theorem Extends.setFault (s : State) (f : FaultReg) : Extends s (s.setFault f) := ⟨rfl, rfl, List.prefix_rfl⟩

/-- An instruction that only emits leaves the state with some events emitted, none where the engine is faulted. -/
theorem unlessFaulted_emit_next {s t : State} {es : List Event} (h : unlessFaulted s (.next (s.emit es)) = .next t) :
    ∃ es', t = s.emit es' := by
  rcases unlessFaulted_next h with ⟨-, rfl⟩ | ⟨-, hk⟩
  · exact ⟨[], (State.emit_nil _).symm⟩
  · cases hk; exact ⟨es, rfl⟩

/-- RX_PUSH is ignored, enters RxOverflow, or stores its bytes behind the stream. -/
theorem execRxPush_next {s t : State} {data : List Byte} (h : execRxPush data s = .next t) :
    t = s ∨
    (s.fault.valid = false ∧ s.rxCap < s.rxLen.toNat + data.length ∧
      t = s.setFault ⟨true, 4, makeCw 0x7 0 data.length⟩) ∨
    t = s.setRx (Memory.setMany s.rxbuf s.rxLen.toNat data) (s.rxLen.toNat + data.length) := by
  rcases unlessFaulted_next h with ⟨-, rfl⟩ | ⟨hv, hk⟩
  · exact .inl rfl
  · split at hk
    · next ho =>
      have hover : s.rxCap < s.rxLen.toNat + data.length := of_decide_eq_true ho
      cases (execRxPush_overflow hv hover).symm.trans h
      exact .inr (.inl ⟨hv, hover, rfl⟩)
    · exact .inr (.inr (append_ok (finish_next hk)).2)

theorem execRxPush_extends {s t : State} {data : List Byte} (h : execRxPush data s = .next t) : Extends s t := by
  rcases execRxPush_next h with rfl | ⟨-, -, rfl⟩ | rfl
  · exact .refl _
  · exact .setFault _ _
  · exact .setRx _ _ _

theorem decodePass_extends {events : List Byte → List Event} {s t : State}
    (h : unlessFaulted s (decodePass events s) = .next t) : Extends s t := by
  rcases unlessFaulted_next h with ⟨-, rfl⟩ | ⟨-, hk⟩
  · exact .refl _
  · obtain ⟨buf, -, hc⟩ := decodePass_next hk
    obtain ⟨kept, -, rfl⟩ := compact_ok hc
    exact (Extends.emit _ _).trans (.setRx _ _ _)

theorem exec_extends {s t : State} {i : Instr} (h : exec i s = .next t) : Extends s t := by
  cases execShape i with
  | emits es legal eq =>
    obtain ⟨es', rfl⟩ := unlessFaulted_emit_next ((eq s).symm.trans h)
    exact .emit _ _
  | pushes data eq => subst eq; exact execRxPush_extends h
  | decodes events legal eq => exact decodePass_extends ((eq s).symm.trans h)
  | resets rsv discarded eq =>
    subst eq
    cases h
    exact (Extends.setRx _ _ _).trans (.setFault _ _)
  | receives address status body eq =>
    subst eq
    simp only [exec, execWireInventoryResponse] at h
    split at h
    · next u hu => exact (execRxPush_extends hu).trans (decodePass_extends h)
    · cases h
    · cases h

theorem raiseFault_extends (c : Cause) (cw : CommandWord) (s : State) : Extends s (raiseFault c cw s) :=
  ⟨raiseFault_rxCap _ _ _, raiseFault_port _ _ _, by rw [raiseFault_out]⟩

/-- A step extends the state with the port as it was before or with a transaction taken off it. -/
theorem step_extends {s t : State} (h : step s = .next t) : ∃ port, Extends (s.setPort port) t := by
  rcases step_cases s with ⟨hs, -⟩ | ⟨hs, -⟩ | ⟨op, rest, -, -, ⟨i, -, -, hs⟩ | ⟨c, -, hs⟩⟩
  · cases hs.symm.trans h
    exact ⟨s.port, .refl s⟩
  · cases hs.symm.trans h
  · exact ⟨rest, exec_extends (hs.symm.trans h)⟩
  · cases hs.symm.trans h
    exact ⟨rest, raiseFault_extends _ _ _⟩

/-! ### The stream after RX_PUSH and after a decode pass -/

theorem Holds.get {s : State} {bs : List Byte} (h : Holds s bs) (a : Nat) : Memory.get s.rxbuf a = bs[a]? := by
  rw [h.buf, Memory.get_cells, if_pos (Nat.zero_le a), Nat.sub_zero]

/-- A decode pass leaves the stream without its consumed front, which is empty where the engine is faulted. -/
theorem Holds.of_decodePass {s t : State} {bs : List Byte} (hh : Holds s bs) (hcap : s.rxCap ≤ 65535)
    {events : List Byte → List Event} (h : unlessFaulted s (Machine.decodePass events s) = .next t) :
    ∃ c ≤ bs.length, Holds t (bs.drop c) ∧ t.fault = s.fault := by
  rcases unlessFaulted_next h with ⟨-, rfl⟩ | ⟨-, hk⟩
  · exact ⟨0, Nat.zero_le _, hh, rfl⟩
  · cases (hh.decodePass events).symm.trans hk
    have hfit : (bs.drop (decodeScan bs).1).length ≤ s.rxCap := by
      rw [List.length_drop]; exact le_trans (Nat.sub_le _ _) hh.fits
    refine ⟨(decodeScan bs).1, (decodeScan_sound bs).1, ?_, rfl⟩
    rw [← List.length_drop]
    exact Holds.setRx (s.emit _) _ hfit hcap

/-! ### The FAULT register that serving a word leaves -/

theorem causeCode_bounds (c : Cause) : 1 ≤ (causeCode c).toNat ∧ (causeCode c).toNat ≤ 4 := by
  cases c <;> decide

theorem cwOp_eq_reset_iff (cw : CommandWord) : cwOp cw = 0xF ↔ cw.toNat / 2 ^ 28 = 15 := by
  rw [← cwOp_toNat, BitVec.toNat_eq]; rfl

/-- Serving a word that changes FAULT is a RESET, which clears it, or the entry of a clear engine into a fault. -/
theorem faultAfterServing_of_ne {cw : CommandWord} {s : State} (h : faultAfterServing cw s ≠ s.fault) :
    (cwOp cw = 0xF ∧ faultAfterServing cw s = .clear) ∨
    (cwOp cw ≠ 0xF ∧ s.fault.valid = false ∧ ∃ c, faultAfterServing cw s = ⟨true, causeCode c, cw⟩) := by
  by_cases hop : cwOp cw = 0xF
  · exact .inl ⟨hop, if_pos hop⟩
  · refine .inr ⟨hop, ?_⟩
    simp only [faultAfterServing, if_neg hop] at h ⊢
    cases hc : check cw s with
    | none => rw [hc] at h; exact absurd rfl h
    | some c =>
      simp only [hc, raiseFault_fault] at h ⊢
      cases hv : s.fault.valid with
      | true => rw [hv] at h; exact absurd rfl h
      | false => exact ⟨rfl, c, rfl⟩

/-- A step that changes FAULT has served the oldest transaction. -/
theorem step_fault_of_ne {s t : State} (h : step s = .next t) (hne : t.fault ≠ s.fault) :
    ∃ op rest, s.port = op :: rest ∧ t.fault = faultAfterServing op.cw s := by
  cases hp : s.port with
  | nil =>
    have hwait : step s = .next s := by simp [step, fetch, hp]
    cases hwait.symm.trans h
    exact absurd rfl hne
  | cons op rest =>
    have hf := step_fault hp h
    split at hf
    · exact ⟨op, rest, rfl, hf⟩
    · exact absurd hf hne

end Sys2Proof.Machine
end

section
/-! The obligations of 10_state.md. -/

namespace Sys2Proof.Machine

/-- Settles O11: a step that changes FAULT has served a word, which is a RESET or enters a fault. -/
theorem faultWrittenOnlyByFaultOrReset : Obligations.FaultWrittenOnlyByFaultOrReset := by
  intro s t hstep hne
  obtain ⟨op, rest, hp, hf⟩ := step_fault_of_ne hstep hne
  refine ⟨op, rest, hp, ?_⟩
  rcases faultAfterServing_of_ne (hf ▸ hne) with ⟨hop, hclear⟩ | ⟨hop, hv, c, hentry⟩
  · exact .inl ⟨(cwOp_eq_reset_iff _).1 hop, hf.trans hclear⟩
  · rw [hf, hentry]
    exact .inr ⟨mt (cwOp_eq_reset_iff _).2 hop, hv, rfl, rfl, causeCode_bounds c⟩

/-- Settles O18: OUT before the step stands at the front of OUT after it. -/
theorem outIsAppendOnly : Obligations.OutIsAppendOnly := by
  intro s t hstep
  obtain ⟨port, -, -, events, hout⟩ := step_extends hstep
  exact ⟨events, hout.symm⟩

/-- Settles O19: every instruction, and so every step, extends the state it starts from. -/
theorem capacityAndPortUnchanged : Obligations.CapacityAndPortUnchanged := by
  refine ⟨fun s t i h => ?_, fun s t h => ?_⟩
  · obtain ⟨hcap, hport, -⟩ := exec_extends h
    exact ⟨hcap, hport⟩
  · obtain ⟨port, hext⟩ := step_extends h
    exact hext.cap

/-- Settles O21: each of the ten instructions does nothing but emit. -/
theorem emittingInstructionsFrame : Obligations.EmittingInstructionsFrame := by
  intro s t i hi h
  have hemits : ∃ es, exec i s = unlessFaulted s (.next (s.emit es)) := by
    rcases hi with ⟨d, rfl⟩ | ⟨d, rfl⟩ | ⟨f, rfl⟩ | ⟨q, se, ta, an, sc, rfl⟩ | rfl | ⟨p, rfl⟩ | ⟨f, rfl⟩ |
      ⟨q, se, ta, an, sc, rfl⟩ | rfl | ⟨p, rfl⟩
    all_goals exact ⟨_, rfl⟩
  obtain ⟨es, hes⟩ := hemits
  obtain ⟨es', rfl⟩ := unlessFaulted_emit_next (hes.symm.trans h)
  exact ⟨rfl, rfl, rfl, rfl, fun _ => rfl, es', rfl⟩

/-- Settles O22: of the three things RX_PUSH can come to, only the storing of its bytes touches RXBUF. -/
theorem rxPushFrame : Obligations.RxPushFrame := by
  intro s t d hwf h
  rcases execRxPush_next h with rfl | ⟨hv, hover, rfl⟩ | rfl
  · exact ⟨rfl, rfl, rfl, fun _ _ => rfl, .inl rfl⟩
  · exact ⟨rfl, rfl, rfl, fun _ _ => rfl, .inr ⟨hv, hover, rfl, rfl⟩⟩
  · refine ⟨rfl, rfl, rfl, fun a ha => ?_, .inl rfl⟩
    rw [State.setRx_rxbuf, Memory.get_setMany _ _ _ _ hwf, if_neg ha]

/-- Settles O23: both instructions leave the stream without its consumed front, so a byte is read from as many addresses
further on as bytes were consumed. -/
theorem decodePassFrame : Obligations.DecodePassFrame := by
  intro s t i hs hi h
  have hpass : ∃ events, exec i s = unlessFaulted s (decodePass events s) := by
    rcases hi with rfl | rfl
    · exact ⟨_, rfl⟩
    · exact ⟨_, rfl⟩
  obtain ⟨events, hev⟩ := hpass
  have hh := hs.holds
  obtain ⟨-, hmax, -⟩ := hs
  obtain ⟨c, hc, ht, hfault⟩ := hh.of_decodePass hmax (hev.symm.trans h)
  have hlen : t.rxLen.toNat = s.rxLen.toNat - c := by rw [ht.len, hh.len, List.length_drop]
  obtain ⟨hcap, hport, -⟩ := exec_extends h
  refine ⟨hfault, hcap, hport, hlen ▸ Nat.sub_le _ _, fun a => ?_⟩
  rw [ht.get, hh.get, List.getElem?_drop]
  rw [← hh.len] at hc
  split
  · rw [hlen, Nat.sub_sub_self hc]
  · next ha => exact List.getElem?_eq_none (by rw [← hh.len]; omega)

/-- Settles O39: in a legal state the bytes that fit are stored behind the stream. -/
theorem rxPushCompletes : Obligations.RxPushCompletes := by
  intro s bs d hs hv hr hfit
  have hh := hs.holds_of_received hr
  obtain ⟨-, hmax, -⟩ := hs
  have ht := Holds.setRx s (bs ++ d) (by rwa [List.length_append]) hmax
  rw [List.length_append] at ht
  exact ⟨_, hh.execRxPush hv hfit, ht.received, ht.len.trans List.length_append, rfl, rfl, rfl, rfl⟩

end Sys2Proof.Machine
end

section
/-! SUPPORT. For the statements of 20_memory.md: a decode pass over a stream whose end has not come yet goes on where it
stopped, and what RX_PUSH followed by DECODE does to a stream held back from earlier pieces. -/

namespace Sys2Proof.Machine

/-! ### A decode pass goes on where it stopped -/

/-- A turn of the pass stops, with at most LEN_MAX bytes there, or it consumes bytes, whatever bytes come behind them. -/
theorem decodeScan_turn (buf : List Byte) :
    (decodeScan buf = (0, []) ∧ buf.length ≤ config.lenMax) ∨
    ∃ k found, 1 ≤ k ∧ k ≤ buf.length ∧ ∀ more, decodeScan (buf ++ more) =
      (k + (decodeScan (buf.drop k ++ more)).1, found ++ (decodeScan (buf.drop k ++ more)).2) := by
  by_cases hmin : buf.length < config.minAvail
  · refine .inl ⟨by rw [decodeScan_eq, if_pos hmin], ?_⟩
    simp only [config] at hmin ⊢
    omega
  have hpos : 1 ≤ buf.length := by simp only [config] at hmin; omega
  have hmin' : ∀ more, ¬ (buf ++ more).length < config.minAvail := fun more => by
    rw [List.length_append]; omega
  have hbyte : ∀ more, byteAt (buf ++ more) 0 = byteAt buf 0 := fun more => byteAt_append_left hpos
  by_cases hrange : (byteAt buf 0).toNat < config.lenMin ∨ config.lenMax < (byteAt buf 0).toNat
  · refine .inr ⟨1, [], le_refl _, hpos, fun more => ?_⟩
    rw [decodeScan_eq, if_neg (hmin' more), hbyte, if_pos hrange, List.drop_append_of_le_length hpos, List.nil_append]
  by_cases hpartial : buf.length < (byteAt buf 0).toNat + 1
  · exact .inl ⟨by rw [decodeScan_eq, if_neg hmin, if_neg hrange, if_pos hpartial], by omega⟩
  have hwhole : (byteAt buf 0).toNat + 1 ≤ buf.length := by omega
  have hwhole' : ∀ more, ¬ (buf ++ more).length < (byteAt buf 0).toNat + 1 := fun more => by
    rw [List.length_append]; omega
  by_cases hvalid : crcValid (buf.take ((byteAt buf 0).toNat + 1)) = true
  · refine .inr ⟨_, [buf.take ((byteAt buf 0).toNat + 1)], Nat.le_add_left _ _, hwhole, fun more => ?_⟩
    rw [decodeScan_eq, if_neg (hmin' more), hbyte, if_neg hrange, if_neg (hwhole' more),
      List.take_append_of_le_length hwhole, if_pos hvalid, List.drop_append_of_le_length hwhole, List.singleton_append]
  · refine .inr ⟨1, [], le_refl _, hpos, fun more => ?_⟩
    rw [decodeScan_eq, if_neg (hmin' more), hbyte, if_neg hrange, if_neg (hwhole' more),
      List.take_append_of_le_length hwhole, if_neg hvalid, List.drop_append_of_le_length hpos, List.nil_append]

/-- A pass over a stream finds what a pass over its front finds, and then what a pass over the bytes this one retains and
the rest of the stream finds. -/
theorem decodeScan_append (buf more : List Byte) :
    decodeScan (buf ++ more) =
      ((decodeScan buf).1 + (decodeScan (buf.drop (decodeScan buf).1 ++ more)).1,
        (decodeScan buf).2 ++ (decodeScan (buf.drop (decodeScan buf).1 ++ more)).2) := by
  induction buf using decodeScan_induction with
  | turn buf ih =>
    rcases decodeScan_turn buf with ⟨hstop, -⟩ | ⟨k, found, hk, hkl, hgo⟩
    · simp [hstop]
    · have hbuf := hgo []
      simp only [List.append_nil] at hbuf
      rw [hgo more, ih k hk hkl, hbuf]
      simp only [List.drop_drop, Nat.add_assoc, List.append_assoc]

/-- A pass over the bytes a pass retains finds nothing more (R88). -/
theorem decodeScan_retained (buf : List Byte) : decodeScan (buf.drop (decodeScan buf).1) = (0, []) := by
  have h := decodeScan_append buf []
  simp only [List.append_nil] at h
  obtain ⟨hcount, hframes⟩ := Prod.ext_iff.1 h
  exact Prod.ext (Nat.left_eq_add.1 hcount) (List.self_eq_append_right.1 hframes)

/-- A stream in which a pass finds nothing to consume has at most LEN_MAX bytes (R88). -/
theorem length_le_of_decodeScan_stops {buf : List Byte} (h : decodeScan buf = (0, [])) : buf.length ≤ config.lenMax := by
  rcases decodeScan_turn buf with ⟨-, hlen⟩ | ⟨k, found, hk, -, hgo⟩
  · exact hlen
  · have hbuf := hgo []
    rw [List.append_nil, h] at hbuf
    have hcount := congrArg Prod.fst hbuf
    simp only at hcount
    omega

/-! ### Running the program of RX_PUSH and DECODE -/

theorem run_succ_of_step {M : Host.Core} {s t : M.State} (h : M.step s = .next t) (k : Nat) :
    M.run (k + 1) s = M.run k t := by
  rw [Host.Core.run, h]

theorem decodeOp_rxPush {data : List Byte} (h : data.length ≤ 65535) :
    decodeOp ⟨makeCw 0x7 0 data.length, data⟩ = .ok (.rxPush data) := by
  have hcheck : checkWord (makeCw 0x7 0 data.length) = none := by
    simp [checkWord, cwOp_makeCw _ _ _ h, cwRsv_makeCw _ _ _ h]
  rw [decodeOp_complete (cwCount_makeCw _ _ _ h).symm, hcheck, cwOp_makeCw _ _ _ h]
  rfl

theorem decodeOp_decode : decodeOp ⟨makeCw 0x8 0 0, []⟩ = .ok .decode := by decide

/-- The frames that the events of a DECODE carry. -/
theorem filterMap_frame_decode (frames : List (List Byte)) (c : Nat) :
    (frames.flatMap (fun f => [Event.frameOut f]) ++ [Event.consumedOut c]).filterMap Event.frame? = frames := by
  induction frames with
  | nil => rfl
  | cons f frames ih => exact congrArg (f :: ·) ih

section
variable {s : State} {bs : List Byte} {rest : List Transaction} (h : Holds s bs) (hcap : s.rxCap ≤ 65535)
  (hclear : s.fault.valid = false)
include h hcap hclear

/-- The step that serves an RX_PUSH whose bytes fit stores them behind the stream. -/
theorem Holds.step_rxPush {data : List Byte} (hfit : (bs ++ data).length ≤ s.rxCap)
    (hport : s.port = ⟨makeCw 0x7 0 data.length, data⟩ :: rest) :
    ∃ t, step s = .next t ∧ Holds t (bs ++ data) ∧ t.port = rest ∧ t.fault = s.fault ∧ t.rxCap = s.rxCap ∧
      t.out = s.out := by
  have hlen : data.length ≤ 65535 := by rw [List.length_append] at hfit; omega
  have hexec := (h.setPort rest).execRxPush hclear (by rwa [← List.length_append])
  rw [← List.length_append] at hexec
  exact ⟨_, (step_of_decodeOp hport (decodeOp_rxPush hlen)).trans hexec, .setRx _ _ hfit hcap, rfl, rfl, rfl, rfl⟩

/-- The step that serves a DECODE emits the frames of one pass over the stream and keeps the bytes that pass retains. -/
theorem Holds.step_decode (hport : s.port = ⟨makeCw 0x8 0 0, []⟩ :: rest) :
    ∃ t, step s = .next t ∧ Holds t (bs.drop (decodeScan bs).1) ∧ t.port = rest ∧ t.fault = s.fault ∧
      t.rxCap = s.rxCap ∧
      t.out.filterMap Event.frame? = s.out.filterMap Event.frame? ++ (decodeScan bs).2 := by
  have hexec : exec .decode (s.setPort rest) = Machine.decodePass (fun f => [.frameOut f]) (s.setPort rest) :=
    unlessFaulted_of_clear _ hclear
  rw [(h.setPort rest).decodePass, ← List.length_drop] at hexec
  have hkept : (bs.drop (decodeScan bs).1).length ≤ s.rxCap := by
    rw [List.length_drop]; exact le_trans (Nat.sub_le _ _) h.fits
  refine ⟨_, (step_of_decodeOp hport decodeOp_decode).trans hexec, .setRx _ _ hkept hcap, rfl, rfl, rfl, ?_⟩
  rw [State.setRx_out, State.emit_out, State.setPort_out, List.filterMap_append, filterMap_frame_decode]

end

/-- An engine with FAULT clear that holds the stream `bs` while the host's program still pushes and decodes `pieces`. -/
structure Streaming (s : State) (bs : List Byte) (pieces : List (List Byte)) : Prop where
  holds : Holds s bs
  cap : s.rxCap ≤ 65535
  clear : s.fault.valid = false
  port : s.port = pushAndDecode pieces

/-- RX_PUSH of a piece that fits, and the DECODE behind it: one pass over the held stream and the piece. -/
theorem Streaming.push_decode {s : State} {bs p : List Byte} {pieces : List (List Byte)}
    (h : Streaming s bs (p :: pieces)) (hfit : (bs ++ p).length ≤ s.rxCap) :
    ∃ t, (∀ k, Host.Core.run Sys2Proof.core (k + 2) s = Host.Core.run Sys2Proof.core k t) ∧
      Streaming t ((bs ++ p).drop (decodeScan (bs ++ p)).1) pieces ∧ t.rxCap = s.rxCap ∧
      t.out.filterMap Event.frame? = s.out.filterMap Event.frame? ++ (decodeScan (bs ++ p)).2 := by
  obtain ⟨hholds, hcap, hclear, hport⟩ := h
  obtain ⟨t, ht, htholds, htport, htfault, htcap, htout⟩ := hholds.step_rxPush hcap hclear hfit hport
  obtain ⟨u, hu, huholds, huport, hufault, hucap, huframes⟩ :=
    htholds.step_decode (htcap ▸ hcap) (htfault ▸ hclear) htport
  refine ⟨u, fun k => (run_succ_of_step (M := Sys2Proof.core) ht _).trans (run_succ_of_step hu k),
    ⟨huholds, ?_, ?_, huport⟩, hucap.trans htcap, htout ▸ huframes⟩
  · rwa [hucap, htcap]
  · rwa [hufault, htfault]

/-- The whole program, from a stream in which a pass finds nothing to consume: no push overflows, and the passes together
are one pass over the held stream and all the pieces. -/
theorem Streaming.run {s : State} {bs : List Byte} {pieces : List (List Byte)} (h : Streaming s bs pieces)
    (hstops : decodeScan bs = (0, [])) (hmin : 251 ≤ s.rxCap) (hpieces : ∀ p ∈ pieces, p.length ≤ s.rxCap - 250) :
    ∃ t, Host.Core.run Sys2Proof.core (2 * pieces.length) s = .next t ∧ t.fault.valid = false ∧ t.port = [] ∧
      t.out.filterMap Event.frame? = s.out.filterMap Event.frame? ++ (decodeScan (bs ++ pieces.flatten)).2 ∧
      received t = .ok ((bs ++ pieces.flatten).drop (decodeScan (bs ++ pieces.flatten)).1) := by
  induction pieces generalizing s bs with
  | nil => exact ⟨s, rfl, h.clear, h.port, by simp [hstops], by simp [hstops, h.holds.received]⟩
  | cons p pieces ih =>
    have hfit : (bs ++ p).length ≤ s.rxCap := by
      rw [List.length_append]
      have hbs : bs.length ≤ 250 := length_le_of_decodeScan_stops hstops
      have hp := hpieces p List.mem_cons_self
      omega
    obtain ⟨t, hrun, ht, htcap, htframes⟩ := h.push_decode hfit
    obtain ⟨u, hu, huclear, huport, huframes, hureceived⟩ := ih ht (decodeScan_retained _) (htcap ▸ hmin)
      (fun q hq => htcap ▸ hpieces q (List.mem_cons_of_mem _ hq))
    have hle := (decodeScan_sound (bs ++ p)).1
    refine ⟨u, (hrun _).trans hu, huclear, huport, ?_, ?_⟩
    · rw [huframes, htframes, List.flatten_cons, ← List.append_assoc bs, decodeScan_append (bs ++ p), List.append_assoc]
    · rw [hureceived, List.flatten_cons, ← List.append_assoc bs, decodeScan_append (bs ++ p), ← List.drop_drop,
        List.drop_append_of_le_length hle]

end Sys2Proof.Machine
end

section
/-! The obligations of 20_memory.md. -/

namespace Sys2Proof.Machine

/-- Settles O48: the program starts from the empty stream, in which a pass finds nothing to consume. -/
theorem streamMayBeSplitAnywhere : Obligations.StreamMayBeSplitAnywhere := by
  intro s pieces hs hv hlen hpieces hport
  have hh := hs.holds
  have hnil : s.rxbuf.map Prod.snd = [] := List.eq_nil_of_length_eq_zero (by rw [← hh.len, hlen]; rfl)
  rw [hnil] at hh
  obtain ⟨hmin, hmax, -⟩ := hs
  exact Streaming.run ⟨hh, hmax, hv, hport⟩ rfl hmin hpieces

/-- Settles O32: the trailer is the low and then the high byte of the CRC. -/
theorem appendCrcCompletes : Obligations.AppendCrcCompletes := by
  intro s d hv
  have happend : exec (.appendCrc d) s = .next (s.emit [.bytesOut (withCrc d)]) := unlessFaulted_of_clear s hv
  rw [happend, withCrc, trailer, loByte_eq, hiByte_eq]
  rfl

end Sys2Proof.Machine
end

section
/-! SUPPORT. For the statements of 30_encoding.md: what the decoder makes of an encoding and the encoder of a decoded
code, the records of a response frame, a pass over one valid frame, and what each shape of an instruction emits. -/

namespace Sys2Proof.Machine

/-! ### Frames with a length byte -/

/-- A sequence whose first byte counts the bytes behind it and two more passes the check once its CRC is appended. -/
theorem crcValid_withCrc_cons {n : Nat} {s : List Byte} (hn : n = s.length + 2) (hle : n ≤ 255) :
    crcValid (withCrc (BitVec.ofNat 8 n :: s)) = true := by
  refine crcValid_withCrc ?_
  rw [byteAt_cons_zero, BitVec.toNat_ofNat, List.length_cons, hn, Nat.mod_eq_of_lt (by omega)]

/-- A frame that passes the check ends in the CRC of the bytes before its trailer (R48). -/
theorem eq_withCrc_of_crcValid {region : List Byte} {lo hi : Byte}
    (hlen : region.length + 1 = (byteAt (region ++ [lo, hi]) 0).toNat) (h : crcValid (region ++ [lo, hi]) = true) :
    withCrc region = region ++ [lo, hi] := by
  rw [crcValid_region hlen, beq_iff_eq, ← littleEndian_bytes (crc16 region)] at h
  obtain ⟨hlo, hhi⟩ := littleEndian_injective h
  rw [withCrc, trailer, hlo, hhi]

theorem responseFrame_length (address status : Byte) (body : List Byte) :
    (responseFrame address status body).length = body.length + 6 := by
  simp [responseFrame]

theorem byteAt_responseFrame_zero (address status : Byte) {body : List Byte} (h : body.length + 5 ≤ 255) :
    (byteAt (responseFrame address status body) 0).toNat = body.length + 5 := by
  have hlen : config.hdrLen + body.length + 1 = body.length + 5 := by simp only [config]; omega
  show (BitVec.ofNat 8 (config.hdrLen + body.length + 1)).toNat = _
  rw [hlen, BitVec.toNat_ofNat, Nat.mod_eq_of_lt (by omega)]

theorem crcValid_responseFrame (address status : Byte) {body : List Byte} (h : body.length + 5 ≤ 255) :
    crcValid (responseFrame address status body) = true :=
  crcValid_withCrc_cons (by simp [config]; omega) (by simp only [config]; omega)

theorem crcValid_buildFrame (opcode : Byte) {payload : List Byte} (h : payload.length ≤ 251) :
    crcValid (buildFrame opcode payload) = true :=
  crcValid_withCrc_cons (by simp) (by omega)

/-- A response frame whose length byte the frame decoder accepts is a valid frame. -/
theorem validFrame_responseFrame (address status : Byte) {body : List Byte} (h : body.length + 5 ≤ 250) :
    validFrame (responseFrame address status body) := by
  have hlen := byteAt_responseFrame_zero address status (body := body) (by omega)
  refine ⟨?_, ?_, ?_, crcValid_responseFrame address status (by omega)⟩
  · rw [hlen]; simp only [config]; omega
  · rw [hlen]; exact h
  · rw [hlen, responseFrame_length]

/-! ### The command word of an encoding -/

/-- The word of an OP and a count, RSV 0, as a number (R40, R59). -/
theorem makeCw_eq_ofNat (op : BitVec 4) {n : Nat} (h : n ≤ 65535) :
    makeCw op 0 n = BitVec.ofNat 32 (op.toNat * 2 ^ 28 + n) := by
  have hop := op.isLt
  refine BitVec.eq_of_toNat_eq ?_
  rw [makeCw_toNat _ _ _ h, BitVec.toNat_ofNat, Nat.mod_eq_of_lt (by omega)]
  simp

/-- Beside RESET, a word passes the check only with RSV 0; and it asks for no operand byte where N is fixed at 0. -/
theorem checkWord_eq_none {cw : CommandWord} (h : checkWord cw = none) :
    (cwOp cw = 0xF ∨ cwRsv cw = 0) ∧ (cwOp cw ∈ [(0x5 : BitVec 4), 0x8, 0xA] → cwCount cw = 0) := by
  simp only [checkWord] at h
  split_ifs at h with hreset hillegal hrsv hfive hone hzero
  · exact ⟨.inl hreset, fun hop => absurd hop (by rw [hreset]; decide)⟩
  · exact ⟨.inr (not_not.1 hrsv), fun hop => not_not.1 fun hn => hzero ⟨hop, hn⟩⟩

/-! ### Decoding an encoding -/

/-- A word that passes the check, with the operand bytes it counts, decodes to what its OP selects. -/
theorem decodeOp_makeCw {op : BitVec 4} {rsv : BitVec 12} {data : List Byte} (hlen : data.length ≤ 65535)
    (hcheck : checkWord (makeCw op rsv data.length) = none) :
    decodeOp ⟨makeCw op rsv data.length, data⟩ = operation op rsv data := by
  rw [decodeOp_complete (cwCount_makeCw _ _ _ hlen).symm, hcheck, cwOp_makeCw _ _ _ hlen, cwRsv_makeCw _ _ _ hlen]

/-- CRC16, APPEND_CRC, VERIFY_CRC and TAG_DECODE decode with any number of operand bytes (R44). -/
theorem decodeOp_of_free_count {op : BitVec 4} (hop : op ∈ [(0x1 : BitVec 4), 0x2, 0x3, 0x9]) {data : List Byte}
    (hlen : data.length ≤ 65535) : decodeOp ⟨makeCw op 0 data.length, data⟩ = operation op 0 data := by
  refine decodeOp_makeCw hlen ?_
  simp only [checkWord, cwOp_makeCw _ _ _ hlen, cwRsv_makeCw _ _ _ hlen]
  simp only [List.mem_cons, List.not_mem_nil, or_false] at hop
  rcases hop with rfl | rfl | rfl | rfl <;> simp

/-- RESET decodes with whatever RSV and operand bytes it has (R42, log 11). -/
theorem decodeOp_reset (rsv : BitVec 12) {discarded : List Byte} (hlen : discarded.length ≤ 65535) :
    decodeOp ⟨makeCw 0xF rsv discarded.length, discarded⟩ = .ok (.reset rsv discarded) :=
  decodeOp_makeCw hlen (if_pos (cwOp_makeCw _ _ _ hlen))

theorem decodeOp_buildInventory (q session target antenna scantime : Byte) :
    decodeOp ⟨makeCw 0x4 0 5, [q, session, target, antenna, scantime]⟩ =
      .ok (.buildInventory q session target antenna scantime) := by
  have hcheck : checkWord (makeCw 0x4 0 5) = none := by decide
  exact decodeOp_makeCw (data := [q, session, target, antenna, scantime]) (by simp) hcheck

theorem decodeOp_buildSetPower (power : Byte) :
    decodeOp ⟨makeCw 0x6 0 1, [power]⟩ = .ok (.buildSetPower power) := by
  have hcheck : checkWord (makeCw 0x6 0 1) = none := by decide
  exact decodeOp_makeCw (data := [power]) (by simp) hcheck

theorem decodeCommand_inventory (q session target antenna scantime : Byte) :
    decodeCommand (buildFrame config.cmdInventory [q, session, target, antenna, scantime]) =
      .ok (.wireInventory q session target antenna scantime) := by
  have hvalid := crcValid_buildFrame config.cmdInventory (payload := [q, session, target, antenna, scantime]) (by simp)
  simp only [buildFrame, withCrc, trailer, List.cons_append, List.nil_append] at hvalid ⊢
  rw [decodeCommand, if_pos ⟨rfl, rfl, rfl⟩, if_pos hvalid]

theorem decodeCommand_stop : decodeCommand (buildFrame config.cmdStop []) = .ok .wireStopInventory := by
  decide +kernel

theorem decodeCommand_setPower (power : Byte) :
    decodeCommand (buildFrame config.cmdSetPower [power]) = .ok (.wireSetPower power) := by
  have hvalid := crcValid_buildFrame config.cmdSetPower (payload := [power]) (by simp)
  simp only [buildFrame, withCrc, trailer, List.cons_append, List.nil_append] at hvalid ⊢
  rw [decodeCommand, if_pos ⟨rfl, rfl, rfl⟩, if_pos hvalid]

theorem decodeResponse_responseFrame (address status : Byte) {body : List Byte} (h : body.length + 5 ≤ 250) :
    decodeResponse (responseFrame address status body) = .ok (.wireInventoryResponse address status body) := by
  obtain ⟨-, hmax, hlen, hvalid⟩ := validFrame_responseFrame address status h
  simp only [responseFrame, withCrc, trailer, List.cons_append, List.nil_append, byteAt_cons_zero] at hmax hlen hvalid ⊢
  rw [decodeResponse, if_pos ⟨rfl, hlen, by simp, hmax⟩, if_pos hvalid]
  simp

/-! ### Encoding what was decoded -/

/-- The operation that OP selects encodes to the word and the bytes it was read from: RSV is 0 but for RESET, and there
are no bytes where N is fixed at 0. -/
theorem encode_of_operation {op : BitVec 4} {rsv : BitVec 12} {data : List Byte} {i : Instr}
    (h : operation op rsv data = .ok i) (hlen : data.length ≤ maxOperands) (hrsv : op = 0xF ∨ rsv = 0)
    (hnone : op ∈ [(0x5 : BitVec 4), 0x8, 0xA] → data = []) :
    encode i = .op ⟨makeCw op rsv data.length, data⟩ ∧ i.wellFormed = true := by
  have hop : ∀ n, op.toNat = n → op = BitVec.ofNat 4 n := fun n hn => by
    rw [← hn, BitVec.ofNat_toNat, BitVec.setWidth_eq]
  unfold operation at h
  split at h
  case h_1 e | h_2 e | h_3 e | h_7 e | h_9 e =>
    cases h
    rw [hop _ e] at hrsv ⊢
    rw [hrsv.resolve_left (by decide)]
    exact ⟨rfl, decide_eq_true hlen⟩
  case h_4 e | h_6 e =>
    rw [hop _ e] at hrsv ⊢
    rw [hrsv.resolve_left (by decide)]
    split at h
    · cases h; exact ⟨rfl, rfl⟩
    · cases h
  case h_5 e | h_8 e | h_10 e =>
    cases h
    rw [hop _ e] at hrsv hnone ⊢
    rw [hrsv.resolve_left (by decide), hnone (by decide)]
    exact ⟨rfl, rfl⟩
  case h_11 e => cases h; rw [hop _ e]; exact ⟨rfl, decide_eq_true hlen⟩
  case h_12 => cases h

/-- A host operation that decodes encodes back to its word and its bytes. -/
theorem encode_of_decodeOp {t : Transaction} {i : Instr} (h : decodeOp t = .ok i) :
    encode i = .op t ∧ i.wellFormed = true := by
  obtain ⟨hlen, hcheck, hop⟩ := decodeOp_ok h
  obtain ⟨hrsv, hnone⟩ := checkWord_eq_none hcheck
  have hmax : t.data.length ≤ maxOperands := by rw [hlen, cwCount_eq, maxOperands]; omega
  obtain ⟨hencode, hwf⟩ := encode_of_operation hop hmax hrsv fun hmem =>
    List.eq_nil_of_length_eq_zero (hlen.trans (hnone hmem))
  rw [hlen, makeCw_fields] at hencode
  exact ⟨hencode, hwf⟩

/-- Where a row of the frame decoder accepts, the frame has the row's layout and a valid trailer. -/
theorem row_accepts {layout : Prop} [Decidable layout] {f : List Byte} {i j : Instr} {ofTrailer ofLayout : Reject}
    (h : (if layout then if crcValid f then .ok j else .error ofTrailer else .error ofLayout) = Except.ok i) :
    layout ∧ crcValid f = true ∧ j = i := by
  split_ifs at h with hlayout hvalid
  cases h
  exact ⟨hlayout, hvalid, rfl⟩

/-- A command frame that decodes is the template of its instruction. -/
theorem encode_of_decodeCommand {f : List Byte} {i : Instr} (h : decodeCommand f = .ok i) :
    encode i = .command f ∧ i.wellFormed = true := by
  unfold decodeCommand at h
  split at h
  · next q session target antenna scantime lo hi =>
    obtain ⟨⟨rfl, rfl, rfl⟩, hvalid, rfl⟩ := row_accepts h
    have hframe := eq_withCrc_of_crcValid (region := [_, _, _, q, session, target, antenna, scantime]) rfl hvalid
    exact ⟨congrArg Code.command hframe, rfl⟩
  · next lo hi =>
    obtain ⟨⟨rfl, rfl, rfl⟩, hvalid, rfl⟩ := row_accepts h
    exact ⟨congrArg Code.command (eq_withCrc_of_crcValid (region := [_, _, _]) rfl hvalid), rfl⟩
  · next power lo hi =>
    obtain ⟨⟨rfl, rfl, rfl⟩, hvalid, rfl⟩ := row_accepts h
    exact ⟨congrArg Code.command (eq_withCrc_of_crcValid (region := [_, _, _, power]) rfl hvalid), rfl⟩
  · cases h

/-- A response frame that decodes is the frame of its address, its status and its body. -/
theorem encode_of_decodeResponse {f : List Byte} {i : Instr} (h : decodeResponse f = .ok i) :
    encode i = .response f ∧ i.wellFormed = true := by
  unfold decodeResponse at h
  split at h
  · next len address opcode status rest =>
    obtain ⟨⟨rfl, hlen, htrailer, hmax⟩, hvalid, rfl⟩ := row_accepts h
    obtain ⟨body, lo, hi, rfl⟩ : ∃ body lo hi, rest = body ++ [lo, hi] := by
      have htwo : (rest.drop (rest.length - 2)).length = 2 := by rw [List.length_drop]; omega
      obtain ⟨lo, hi, hdrop⟩ := List.length_eq_two.1 htwo
      exact ⟨rest.take (rest.length - 2), lo, hi, by rw [← hdrop, List.take_append_drop]⟩
    have hbody : (body ++ [lo, hi]).take ((body ++ [lo, hi]).length - 2) = body := by simp
    have hcount : config.hdrLen + body.length + 1 = len.toNat := by simp [config] at hlen ⊢; omega
    have hframe := eq_withCrc_of_crcValid (region := len :: address :: config.cmdInventory :: status :: body)
      (by simp [config] at hcount ⊢; omega) hvalid
    rw [hbody]
    refine ⟨?_, decide_eq_true (by simp only [config] at hcount; omega)⟩
    simp only [encode, responseFrame, hcount, BitVec.ofNat_toNat, BitVec.setWidth_eq]
    exact congrArg Code.response hframe
  · cases h

/-! ### Tag records -/

theorem byteAt_append_add (s t : List Byte) (k : Nat) : byteAt (s ++ t) (s.length + k) = byteAt t k := by
  rw [byteAt_append_right (Nat.le_add_right _ _), Nat.add_sub_cancel_left]

theorem bigEndian_bytes (pc : Half) : bigEndian (hiByte pc) (loByte pc) = pc := by
  rw [bigEndian, BitVec.or_comm]
  exact littleEndian_bytes pc

theorem sext8_eq_toInt (b : Byte) : sext8 b = b.toInt := by
  rw [BitVec.toInt_eq_toNat_cond, sext8]
  split <;> split <;> omega

theorem WireRecord.bytes_length {r : WireRecord} (h : r.epc.length = epcLen r.pc) :
    r.bytes.length = epcLen r.pc + 3 := by
  simp [WireRecord.bytes, h]

/-- No record fits into these bytes: they do not hold a PC word, or not the EPC and the RSSI it asks for (R96). -/
def HoldsNoRecord (tail : List Byte) : Prop :=
  tail.length < 2 ∨ tail.length < 2 + epcLen (bigEndian (byteAt tail 0) (byteAt tail 1)) + 1

/-- One turn of the record loop over a well-formed record takes it, and goes on behind it. -/
theorem tagLoop_record {before more : List Byte} {r : WireRecord} {stop num : Nat} (hr : r.epc.length = epcLen r.pc)
    (hstop : before.length + r.bytes.length ≤ stop) :
    tagLoop (before ++ r.bytes ++ more) stop (num + 1) before.length =
      (r.epc, sext8 r.rssi) :: tagLoop (before ++ r.bytes ++ more) stop num (before ++ r.bytes).length := by
  have hat : ∀ k, byteAt (before ++ r.bytes ++ more) (before.length + k) = byteAt (r.bytes ++ more) k := fun k => by
    rw [List.append_assoc, byteAt_append_add]
  have hpc : bigEndian (byteAt (before ++ r.bytes ++ more) before.length)
      (byteAt (before ++ r.bytes ++ more) (before.length + 1)) = r.pc :=
    (congrArg₂ bigEndian (hat 0) (hat 1)).trans (bigEndian_bytes r.pc)
  have hepc : slice (before ++ r.bytes ++ more) (before.length + 2) (before.length + (2 + epcLen r.pc)) = r.epc := by
    rw [List.append_assoc, slice_append_right, ← hr]
    simp [slice, WireRecord.bytes]
  have hrssi : byteAt (before ++ r.bytes ++ more) (before.length + (2 + epcLen r.pc)) = r.rssi := by
    rw [hat, ← hr, WireRecord.bytes, List.append_assoc, byteAt_append_right (by simp; omega)]
    have hoff : 2 + r.epc.length - ([hiByte r.pc, loByte r.pc] ++ r.epc).length = 0 := by simp; omega
    rw [hoff]
    rfl
  rw [WireRecord.bytes_length hr] at hstop
  have hnext : (before ++ r.bytes).length = before.length + epcLen r.pc + 3 := by
    rw [List.length_append, WireRecord.bytes_length hr, Nat.add_assoc]
  rw [tagLoop, if_neg (by omega)]
  simp only [hpc]
  rw [if_neg (by omega), Nat.add_assoc before.length 2, hepc, hrssi, hnext]

/-- The record loop stops before bytes that hold no record. -/
theorem tagLoop_of_holdsNoRecord {tail : List Byte} (h : HoldsNoRecord tail) (before more : List Byte) (num : Nat) :
    tagLoop (before ++ tail ++ more) (before.length + tail.length) num before.length = [] := by
  cases num with
  | zero => rfl
  | succ num =>
    rw [tagLoop]
    split
    · rfl
    · next hfits =>
      have hat : ∀ k < tail.length, byteAt (before ++ tail ++ more) (before.length + k) = byteAt tail k := by
        intro k hk
        rw [List.append_assoc, byteAt_append_add, byteAt_append_left hk]
      have hpc := hat 0 (by omega)
      rw [Nat.add_zero] at hpc
      rw [hpc, hat 1 (by omega)]
      exact if_pos (by rcases h with h | h <;> omega)

/-- The record loop over well-formed records and bytes that follow them gives the records, if as many are asked for, or
more where no further record follows. -/
theorem tagLoop_records (before more tail : List Byte) (records : List WireRecord) (num : Nat)
    (hwf : ∀ r ∈ records, r.epc.length = epcLen r.pc)
    (hnum : num = records.length ∨ records.length < num ∧ HoldsNoRecord tail) :
    tagLoop (before ++ (records.flatMap WireRecord.bytes ++ tail) ++ more)
      (before.length + (records.flatMap WireRecord.bytes ++ tail).length) num before.length =
      records.map (fun r => (r.epc, sext8 r.rssi)) := by
  induction records generalizing before num with
  | nil =>
    rcases hnum with rfl | ⟨-, htail⟩
    · rfl
    · exact tagLoop_of_holdsNoRecord htail before more num
  | cons r records ih =>
    obtain ⟨n, rfl⟩ : ∃ n, num = n + 1 := ⟨num - 1, by simp at hnum; omega⟩
    have hrest := ih (before ++ r.bytes) n (fun x hx => hwf x (List.mem_cons_of_mem _ hx)) (by simpa using hnum)
    have hstop : before.length + ((r :: records).flatMap WireRecord.bytes ++ tail).length =
        (before ++ r.bytes).length + (records.flatMap WireRecord.bytes ++ tail).length := by
      simp only [List.flatMap_cons, List.length_append]; omega
    have hframe : before ++ ((r :: records).flatMap WireRecord.bytes ++ tail) ++ more =
        before ++ r.bytes ++ ((records.flatMap WireRecord.bytes ++ tail) ++ more) := by
      simp only [List.flatMap_cons, List.append_assoc]
    rw [hstop, hframe, tagLoop_record (hwf r List.mem_cons_self) (by rw [List.length_append]; omega),
      ← List.append_assoc, hrest, List.map_cons]

/-- The bytes behind the count byte of a response frame stand at index 5. -/
theorem responseFrame_split (address status num : Byte) (body : List Byte) :
    ∃ before more, before.length = 5 ∧ responseFrame address status (num :: body) = before ++ body ++ more :=
  ⟨[_, address, config.cmdInventory, status, num], trailer _, rfl, rfl⟩

/-- The records of a response frame with a status of R93: those of the bytes behind the count byte, from its length byte
TAG_MIN_LEN on. -/
theorem tagRecords_responseFrame (address : Byte) {status num : Byte} {body : List Byte}
    (hstatus : status ∈ config.tagStatusSet) (hlen : body.length + 6 ≤ 255) :
    tagRecords (responseFrame address status (num :: body)) =
      if body.length + 6 < config.tagMinLen then []
      else tagLoop (responseFrame address status (num :: body)) (body.length + 5) num.toNat 5 := by
  have hL : (byteAt (responseFrame address status (num :: body)) 0).toNat = body.length + 6 :=
    byteAt_responseFrame_zero _ _ hlen
  have hlength : (responseFrame address status (num :: body)).length = body.length + 7 := responseFrame_length _ _ _
  have hcmd : byteAt (responseFrame address status (num :: body)) 2 = config.cmdInventory := rfl
  have hst : byteAt (responseFrame address status (num :: body)) 3 = status := rfl
  have hcount : byteAt (responseFrame address status (num :: body)) 4 = num := rfl
  unfold tagRecords
  simp only [hL, hlength, hcmd, hst, hcount, hstatus]
  simp [config]

/-! ### A pass over one valid frame -/

/-- A pass over a stream that is one valid frame finds it and consumes it. -/
theorem decodeScan_of_validFrame {v : List Byte} (h : validFrame v) : decodeScan v = (v.length, [v]) := by
  obtain ⟨hmin, hmax, hlen, hvalid⟩ := h
  have htake : v.take ((byteAt v 0).toNat + 1) = v := List.take_of_length_le hlen.le
  have hdrop : v.drop ((byteAt v 0).toNat + 1) = [] := List.drop_of_length_le hlen.le
  have hempty : decodeScan [] = (0, []) := rfl
  have havail : ¬ v.length < config.minAvail := by simp only [config] at hmin ⊢; omega
  rw [decodeScan_eq, if_neg havail, if_neg (by omega), if_neg (by omega), htake, if_pos hvalid, hdrop, hempty, hlen]
  rfl

/-- In a state that holds a stream and has FAULT clear, PROCESS is one pass over the stream. -/
theorem Holds.execProcess {s : State} {bs : List Byte} (h : Holds s bs) (hv : s.fault.valid = false) :
    execProcess s =
      .next ((s.emit ((decodeScan bs).2.flatMap (fun f => .frameOut f :: tagEvents f) ++
        [.consumedOut (decodeScan bs).1])).setRx
        (Memory.cells 0 (bs.drop (decodeScan bs).1)) (bs.length - (decodeScan bs).1)) :=
  (unlessFaulted_of_clear s hv).trans (h.decodePass _)

/-! ### The outcomes of the wire row of a response -/

/-- The wire row is PROCESS in the state that RX_PUSH of the frame leaves (log 2). -/
theorem exec_wireInventoryResponse {s u : State} {address status : Byte} {body : List Byte}
    (h : execRxPush (responseFrame address status body) s = .next u) :
    exec (.wireInventoryResponse address status body) s = execProcess u := by
  simp only [exec, execWireInventoryResponse, h]

/-- RX_PUSH of bytes that do not fit enters RxOverflow with the word of the push as a number. -/
theorem execRxPush_overflow_word {s : State} {data : List Byte} (hv : s.fault.valid = false)
    (hlen : data.length ≤ 65535) (hover : s.rxCap < s.rxLen.toNat + data.length) :
    execRxPush data s = .next (s.setFault ⟨true, 4, BitVec.ofNat 32 (0x70000000 + data.length)⟩) := by
  rw [execRxPush_overflow hv hover, makeCw_eq_ofNat _ hlen]
  rfl

/-! ### What each shape of an instruction emits -/

/-- With FAULT clear, an instruction that only emits appends its events. -/
theorem out_of_emits {s t : State} {es : List Event} (hv : s.fault.valid = false)
    (h : unlessFaulted s (.next (s.emit es)) = .next t) : t.out = s.out ++ es := by
  cases (unlessFaulted_of_clear s hv).symm.trans h
  rfl

/-- With FAULT clear, a decode pass appends the events of the frames it finds, then ConsumedOut. -/
theorem out_of_decodePass {events : List Byte → List Event} {s t : State} (hv : s.fault.valid = false)
    (h : unlessFaulted s (decodePass events s) = .next t) :
    ∃ (frames : List (List Byte)) (c : Nat), t.out = s.out ++ frames.flatMap events ++ [.consumedOut c] := by
  rw [unlessFaulted_of_clear s hv] at h
  obtain ⟨buf, -, hc⟩ := decodePass_next h
  obtain ⟨kept, -, rfl⟩ := compact_ok hc
  exact ⟨(decodeScan buf).2, (decodeScan buf).1, (List.append_assoc _ _ _).symm⟩

/-- RX_PUSH emits nothing, whatever it comes to. -/
theorem execRxPush_out {s t : State} {data : List Byte} (h : execRxPush data s = .next t) : t.out = s.out := by
  rcases execRxPush_next h with rfl | ⟨-, -, rfl⟩ | rfl <;> rfl

/-- Serving a word whose check gives a cause emits nothing: the operation is never begun, or it is an RX_PUSH. -/
theorem step_out_of_check {s t : State} {op : Transaction} {rest : List Transaction} (hp : s.port = op :: rest)
    (hcheck : (check op.cw s).isSome = true) (h : step s = .next t) : t.out = s.out := by
  rcases step_cases s with ⟨hs, -⟩ | ⟨hs, -⟩ | ⟨op', rest', hp', -, ⟨i, hc, ho, hs⟩ | ⟨c, -, hs⟩⟩
  · cases hs.symm.trans h; rfl
  · cases hs.symm.trans h
  · cases hp.symm.trans hp'
    by_cases h7 : cwOp op.cw = 0x7
    · rw [h7] at ho
      cases ho
      exact execRxPush_out (s := s.setPort rest) (hs.symm.trans h)
    · rw [check_of_op_ne_rxPush h7 hc] at hcheck
      cases hcheck
  · cases hs.symm.trans h
    exact raiseFault_out _ _ _

/-! ### Delivery -/

/-- A byte goes to the transaction that was issued last. -/
theorem State.deliverByte_issue (s : State) (cw : CommandWord) (data : List Byte) (b : Byte) :
    (s.issue ⟨cw, data⟩).deliverByte b = s.issue ⟨cw, data ++ [b]⟩ := by
  simp [State.deliverByte, State.issue]

/-! ### The assembler -/

theorem assemble_op (m : Mnemonic) {bytes : List Byte} (h : bytes.length ≤ 65535) :
    assemble (.op m bytes) = some [⟨BitVec.ofNat 32 ((mnemonicOp m).toNat * 2 ^ 28 + bytes.length), bytes⟩] := by
  rw [assemble, if_pos (show bytes.length ≤ maxOperands from h), transactionOf, makeCw_eq_ofNat _ h]

end Sys2Proof.Machine
end

section
/-! The obligations of 30_encoding.md. -/

namespace Sys2Proof.Machine

/-- Settles O1: one decoding lemma for each family of encodings. -/
theorem decodeOfEncode : Obligations.DecodeOfEncode := by
  intro i h
  cases i with
  | crc16 data => exact decodeOp_of_free_count (by decide) (of_decide_eq_true h)
  | appendCrc data => exact decodeOp_of_free_count (by decide) (of_decide_eq_true h)
  | verifyCrc frame => exact decodeOp_of_free_count (by decide) (of_decide_eq_true h)
  | buildInventory q session target antenna scantime =>
    exact decodeOp_buildInventory q session target antenna scantime
  | buildStop => rfl
  | buildSetPower power => exact decodeOp_buildSetPower power
  | rxPush data => exact decodeOp_rxPush (of_decide_eq_true h)
  | decode => exact decodeOp_decode
  | tagDecode frame => exact decodeOp_of_free_count (by decide) (of_decide_eq_true h)
  | process => rfl
  | reset rsv discarded => exact decodeOp_reset rsv (of_decide_eq_true h)
  | wireInventory q session target antenna scantime => exact decodeCommand_inventory q session target antenna scantime
  | wireStopInventory => exact decodeCommand_stop
  | wireSetPower power => exact decodeCommand_setPower power
  | wireInventoryResponse address status body => exact decodeResponse_responseFrame address status (of_decide_eq_true h)

/-- Settles O2: one lemma for each of the three kinds of code. -/
theorem encodeOfDecode : Obligations.EncodeOfDecode := by
  intro c i h
  cases c with
  | op t => exact encode_of_decodeOp h
  | command f => exact encode_of_decodeCommand h
  | response f => exact encode_of_decodeResponse h

/-- Settles O55: the record loop takes the records one by one, and a frame below TAG_MIN_LEN is too short for one. -/
theorem tagRecordsDecodeTheirEncoding : Obligations.TagRecordsDecodeTheirEncoding := by
  intro address status num records tail hstatus hwf hnum hlen
  rw [tagRecords_responseFrame address (by simpa [config] using hstatus) (by simpa using hlen)]
  split
  · next hshort =>
    cases records with
    | nil => rfl
    | cons r records =>
      have hbytes := WireRecord.bytes_length (hwf r List.mem_cons_self)
      obtain ⟨hepc, -, -⟩ := epcLen_bounds r.pc
      simp only [List.flatMap_cons, List.length_append, config] at hshort
      omega
  · obtain ⟨before, more, hbefore, hframe⟩ := responseFrame_split address status num
      (records.flatMap WireRecord.bytes ++ tail)
    rw [hframe, Nat.add_comm _ 5, ← hbefore]
    exact tagLoop_records before more tail records num.toNat hwf hnum

/-- Settles O6: each byte goes to the transaction that the command word opened. -/
theorem deliveredBytesMakeTheOperation : Obligations.DeliveredBytesMakeTheOperation := by
  intro s cw bytes
  have hdeliver : ∀ data, bytes.foldl State.deliverByte (s.issue ⟨cw, data⟩) = s.issue ⟨cw, data ++ bytes⟩ := by
    induction bytes with
    | nil => intro data; rw [List.append_nil]; rfl
    | cons b bytes ih =>
      intro data
      rw [List.foldl_cons, State.deliverByte_issue, ih, List.append_assoc, List.singleton_append]
  exact hdeliver []

/-- Settles O20: each shape of an instruction emits its own events, and a word whose check gives a cause none. -/
theorem eventsOfEachOperation : Obligations.EventsOfEachOperation := by
  refine ⟨fun s t d hv h => ⟨_, out_of_emits hv h⟩, ?_, fun s t f hv h => ⟨_, out_of_emits hv h⟩, ?_, ?_,
    fun s t hv h => out_of_decodePass hv h, fun s t f hv h => ⟨_, out_of_emits hv h⟩,
    fun s t op rest hp _ hcheck h => step_out_of_check hp hcheck h⟩
  · rintro s t i hv (⟨d, rfl⟩ | ⟨q, se, ta, an, sc, rfl⟩ | rfl | ⟨p, rfl⟩) h
    all_goals exact ⟨_, out_of_emits hv h⟩
  · rintro s t i (⟨d, rfl⟩ | ⟨rsv, d, rfl⟩) h
    · exact execRxPush_out h
    · cases h; rfl
  · intro s t hv h
    obtain ⟨frames, c, hout⟩ := out_of_decodePass hv h
    exact ⟨frames, c, by rw [hout, List.map_eq_flatMap]⟩

/-- Settles O58: RX_PUSH stores the frame, which the pass of PROCESS finds where nothing stood before it; an overflow
leaves an engine that ignores PROCESS. -/
theorem wireInventoryResponseIsDecoded : Obligations.WireInventoryResponseIsDecoded := by
  refine ⟨fun s bs address status body hs hv hr hlen hfit => ?_, fun s address status body hv hlen hover => ?_, ?_⟩
  · have hh := hs.holds_of_received hr
    obtain ⟨-, hmax, -⟩ := hs
    rw [← responseFrame_length address status body] at hfit
    have hpush := hh.execRxPush hv hfit
    rw [← List.length_append] at hfit hpush
    have hu := Holds.setRx s _ hfit hmax
    have hprocess := hu.execProcess hv
    refine ⟨_, _, hpush, hprocess, (exec_wireInventoryResponse hpush).trans hprocess, rfl, rfl, rfl, ?_⟩
    rintro rfl
    have hscan := decodeScan_of_validFrame (validFrame_responseFrame address status hlen)
    simp only [List.nil_append, hscan, List.drop_length, Nat.sub_self]
    refine ⟨?_, rfl, rfl⟩
    simp [tagEvents, responseFrame_length]
  · rw [← responseFrame_length address status body] at hover ⊢
    have hpush := execRxPush_overflow_word hv (by rw [responseFrame_length]; omega) hover
    exact (exec_wireInventoryResponse hpush).trans (unlessFaulted_of_valid _ rfl)
  · rintro s i hv (⟨q, se, ta, an, sc, rfl⟩ | rfl | ⟨p, rfl⟩ | ⟨a, st, b, rfl⟩)
    case inr.inr.inr =>
      exact (exec_wireInventoryResponse (unlessFaulted_of_valid s hv)).trans (unlessFaulted_of_valid s hv)
    all_goals exact unlessFaulted_of_valid s hv

/-- Settles O3: each word is evaluated. -/
theorem specWordsDecode : Obligations.SpecWordsDecode := by
  unfold Obligations.SpecWordsDecode
  decide +kernel

/-- Settles O5: fetching answers `waiting` where bytes are missing, and `overrun` where there are too many. -/
theorem stepServesCompleteOperationsOnly : Obligations.StepServesCompleteOperationsOnly := by
  refine fun s => ⟨fun hp => ?_, fun t rest hp => ⟨fun hl => ?_, fun hl => ?_⟩⟩
  · simp [step, fetch, hp]
  · rw [← cwCount_eq] at hl
    simp [step, fetch, hp, hl]
  · rw [← cwCount_eq] at hl
    simp [step, fetch, hp, hl, hl.le.not_gt]

/-- Settles O34: the trailer is the low and then the high byte of the CRC. -/
theorem buildInventoryCompletes : Obligations.BuildInventoryCompletes := by
  intro s q session target antenna scantime hv
  rw [← loByte_eq, ← hiByte_eq]
  exact unlessFaulted_of_clear s hv

/-- Settles O35: the frame has no operand, so its CRC is evaluated. -/
theorem buildStopCompletes : Obligations.BuildStopCompletes := by
  intro s hv
  have hframe : buildFrame config.cmdStop [] = [0x04, 0xFF, 0x93, 0x80, 0x03] := by decide +kernel
  rw [← hframe]
  exact unlessFaulted_of_clear s hv

/-- Settles O36: the trailer is the low and then the high byte of the CRC. -/
theorem buildSetPowerCompletes : Obligations.BuildSetPowerCompletes := by
  intro s power hv
  rw [← loByte_eq, ← hiByte_eq]
  exact unlessFaulted_of_clear s hv

/-- Settles O37: each row is the BUILD_ operation of the same payload. -/
theorem wireCommandFramesAreEmitted : Obligations.WireCommandFramesAreEmitted :=
  fun s hv => ⟨fun q session target antenna scantime => buildInventoryCompletes s q session target antenna scantime hv,
    buildStopCompletes s hv, fun power => buildSetPowerCompletes s power hv⟩

/-- Settles O40: the word that RX_PUSH rebuilds for FAULT is the push's own. -/
theorem rxPushOverflowWritesNothing : Obligations.RxPushOverflowWritesNothing :=
  fun _ _ hv hlen hover => execRxPush_overflow_word hv hlen hover

/-- Settles O54: both subtract 256 from a byte above 127. -/
theorem rssiIsTwosComplement : Obligations.RssiIsTwosComplement :=
  fun b => ⟨sext8_eq_toInt b, sext8_bounds b⟩

/-- Settles O60: the table of mnemonics is evaluated, and every line's word is (OP << 28) | N. -/
theorem assemblerRules : Obligations.AssemblerRules := by
  refine ⟨fun row hmem => ?_, fun d hmin hmax => ?_, fun bytes h => ?_, by decide +kernel, by decide +kernel⟩
  · have hrow : mnemonicOf row.1.toList = some row.2.1 ∧ (mnemonicOp row.2.1).toNat = row.2.2 := by
      revert row
      decide +kernel
    obtain ⟨hname, hnum⟩ := hrow
    exact ⟨hname, fun bytes h => hnum ▸ assemble_op row.2.1 h⟩
  · have hbyte : BitVec.ofInt 8 d = BitVec.ofNat 8 (d % 256).toNat := by
      refine BitVec.eq_of_toNat_eq ?_
      rw [BitVec.toNat_ofInt, BitVec.toNat_ofNat]
      omega
    have hword : makeCw 0x6 0 1 = 0x60000001 := by decide
    rw [assemble, if_pos ⟨hmin, hmax⟩, hbyte, ← hword]
    rfl
  · rw [assemble, if_pos (show bytes.length ≤ maxOperands from h), transactionOf, makeCw_eq_ofNat _ h]
    rfl

end Sys2Proof.Machine
end

section
/-! SUPPORT. For the statements of 41_crc.md: the CRC over natural numbers, its residue, that it tells apart two
sequences which differ in one byte, and the frame check as a comparison of numbers. -/

namespace Sys2Proof.Machine

/-! ### The CRC register as a number -/

/-- One turn of R60's loop over natural numbers: halve, and fold 0x8408 in when the bit shifted out was 1. -/
def crcBitNat (n : Nat) : Nat := if n % 2 = 1 then (n / 2) ^^^ 0x8408 else n / 2

theorem crcBit_toNat (crc : Half) : (crcBit crc).toNat = crcBitNat crc.toNat := by
  have hlow : crc.getLsbD 0 = decide (crc.toNat % 2 = 1) := by
    rw [BitVec.getLsbD, Nat.testBit_zero]
  have hhalf : (crc >>> 1).toNat = crc.toNat / 2 := by
    rw [BitVec.toNat_ushiftRight, Nat.shiftRight_eq_div_pow, Nat.pow_one]
  simp only [crcBit, crcBitNat, hlow, decide_eq_true_eq]
  split
  · rw [BitVec.toNat_xor, hhalf]; rfl
  · exact hhalf

theorem crcBits_toNat (n : Nat) (crc : Half) : (crcBits n crc).toNat = crcBitNat^[n] crc.toNat := by
  induction n generalizing crc with
  | zero => rfl
  | succ n ih => rw [crcBits, ih, crcBit_toNat, Function.iterate_succ_apply]

theorem toNat_xor_byte (crc : Half) (b : Byte) : (crc ^^^ b.setWidth 16).toNat = crc.toNat ^^^ b.toNat := by
  rw [BitVec.toNat_xor, BitVec.toNat_setWidth_of_le (by decide)]

/-! ### The residue -/

/-- The bytes that `withCrc` appends, as numbers (R63). -/
theorem withCrc_eq (s : List Byte) :
    withCrc s = s ++ [BitVec.ofNat 8 ((crc16 s).toNat % 256), BitVec.ofNat 8 ((crc16 s).toNat / 256)] := by
  rw [withCrc, trailer, loByte_eq, hiByte_eq]

theorem crc16_append (s t : List Byte) : crc16 (s ++ t) = crcRun (crc16 s) t := by
  rw [crc16_eq_run, crc16_eq_run, crcRun_append]

theorem hiByte_eq_loByte_shift (c : Half) : hiByte c = loByte (c >>> 8) := by
  refine BitVec.eq_of_toNat_eq ?_
  simp [hiByte, loByte]

/-- The register's own two bytes, low byte first, shift it out to 0. -/
theorem crcRun_own_bytes (c : Half) : crcRun c [loByte c, hiByte c] = 0 := by
  show crcStep (crcStep c (loByte c)) (hiByte c) = 0
  rw [crcStep_loByte, hiByte_eq_loByte_shift, crcStep_loByte, ← BitVec.shiftRight_add]
  exact BitVec.ushiftRight_eq_zero (le_refl _)

theorem crc16_withCrc (s : List Byte) : crc16 (withCrc s) = 0 := by
  rw [withCrc, crc16_append]
  exact crcRun_own_bytes _

/-! ### The frame check -/

/-- The frame check compares the trailer, as a number, with the CRC of the region. -/
theorem crcValid_region_iff {region ignored : List Byte} {lo hi : Byte}
    (h : region.length + 1 = (byteAt (region ++ lo :: hi :: ignored) 0).toNat) :
    crcValid (region ++ lo :: hi :: ignored) = true ↔ lo.toNat + 256 * hi.toNat = (crc16 region).toNat := by
  rw [crcValid_region h, beq_iff_eq, ← BitVec.toNat_inj, littleEndian_toNat, eq_comm]

/-- A sequence that passes the check holds all the bytes its length byte counts. -/
theorem lt_length_of_crcValid {f : List Byte} (h : crcValid f = true) : (byteAt f 0).toNat < f.length := by
  obtain ⟨region, lo, hi, ignored, hf, hregion⟩ := crcValid_split h
  rw [← hregion, hf]
  simp

/-- With length byte 1 the region is empty, and its CRC FF FF would have the length byte as its low byte. -/
theorem one_lt_of_crcValid {f : List Byte} (h : crcValid f = true) : 1 < (byteAt f 0).toNat := by
  obtain ⟨region, lo, hi, ignored, rfl, hregion⟩ := crcValid_split h
  have hcrc := (crcValid_region_iff hregion).1 h
  cases region with
  | cons b region => rw [← hregion, List.length_cons]; omega
  | nil =>
    have hinit : (crc16 []).toNat = 65535 := rfl
    have hlen : 1 = lo.toNat := hregion
    omega

/-- Bytes behind the ones that the length byte counts do not matter. -/
theorem crcValid_append {f : List Byte} (h : (byteAt f 0).toNat < f.length) (extra : List Byte) :
    crcValid (f ++ extra) = crcValid f := by
  have hlen : byteAt (f ++ extra) 0 = byteAt f 0 := byteAt_append_left (by omega)
  have hlo : byteAt (f ++ extra) ((byteAt f 0).toNat - 1) = byteAt f ((byteAt f 0).toNat - 1) :=
    byteAt_append_left (by omega)
  have hhi := byteAt_append_left (t := extra) h
  have hregion : slice (f ++ extra) 0 ((byteAt f 0).toNat - 1) = slice f 0 ((byteAt f 0).toNat - 1) :=
    List.take_append_of_le_length (by omega)
  simp only [crcValid, hlen, hlo, hhi, hregion, List.length_append]
  rw [if_neg (by omega), if_neg (by omega : ¬ f.length < 1), if_neg (by omega : ¬ f.length + extra.length < _),
    if_neg (by omega : ¬ f.length < _)]

/-- A frame that passes the check and ends with its trailer has residue 0. -/
theorem crc16_eq_zero_of_crcValid {f : List Byte} (hlen : f.length = (byteAt f 0).toNat + 1) (h : crcValid f = true) :
    crc16 f = 0 := by
  obtain ⟨region, lo, hi, ignored, rfl, hregion⟩ := crcValid_split h
  obtain rfl : ignored = [] := by
    simp only [List.length_append, List.length_cons] at hlen
    exact List.eq_nil_of_length_eq_zero (by omega)
  rw [← eq_withCrc_of_crcValid hregion h, crc16_withCrc]

/-! ### One changed byte -/

/-- The CRC tells apart two sequences that differ in one byte. -/
theorem eq_of_crc16_middle {s t : List Byte} {b c : Byte} (h : crc16 (s ++ b :: t) = crc16 (s ++ c :: t)) : b = c := by
  rw [crc16_append, crc16_append] at h
  exact crcStep_injective_byte _ (crcRun_injective t h)

theorem eq_byteAt_of_crc16_set {f : List Byte} {k : Nat} {b : Byte} (hk : k < f.length)
    (h : crc16 (f.set k b) = crc16 f) : b = byteAt f k := by
  have hset : f.set k b = f.take k ++ b :: f.drop (k + 1) := List.set_eq_take_append_cons_drop.trans (if_pos hk)
  have hf : f = f.take k ++ byteAt f k :: f.drop (k + 1) := by
    rw [byteAt, List.getD_eq_getElem _ _ hk, ← List.drop_eq_getElem_cons hk, List.take_append_drop]
  rw [hset] at h
  exact eq_of_crc16_middle (h.trans (congrArg crc16 hf))

theorem byteAt_set_zero {f : List Byte} {k : Nat} (hk : 1 ≤ k) (b : Byte) : byteAt (f.set k b) 0 = byteAt f 0 := by
  simp only [byteAt, List.getD_eq_getElem?_getD, List.getElem?_set_ne (by omega : k ≠ 0)]

/-- In a valid frame, another value of a byte behind the length byte makes the check fail. -/
theorem crcValid_set {f : List Byte} {k : Nat} {b : Byte} (h : crcValid f = true)
    (hlen : f.length = (byteAt f 0).toNat + 1) (hpos : 1 ≤ k) (hk : k < f.length) (hb : b ≠ byteAt f k) :
    crcValid (f.set k b) = false := by
  by_contra hvalid
  have hlen' : (f.set k b).length = (byteAt (f.set k b) 0).toNat + 1 := by
    rw [List.length_set, byteAt_set_zero hpos, hlen]
  have hzero := crc16_eq_zero_of_crcValid hlen' (by simpa using hvalid)
  exact hb (eq_byteAt_of_crc16_set hk (hzero.trans (crc16_eq_zero_of_crcValid hlen h).symm))

theorem xor_twoPow_ne (b : Byte) {bit : Nat} (h : bit < 8) : b ^^^ BitVec.twoPow 8 bit ≠ b := by
  intro heq
  have hbit := congrArg (fun v : Byte => v.getLsbD bit) heq
  simp [h] at hbit

/-! ### The command template -/

/-- A command frame whose length byte the frame decoder accepts is a valid frame. -/
theorem validFrame_buildFrame (opcode : Byte) {payload : List Byte} (h : payload.length ≤ 246) :
    validFrame (buildFrame opcode payload) := by
  have hL : (byteAt (buildFrame opcode payload) 0).toNat = payload.length + 4 := by
    show (BitVec.ofNat 8 (payload.length + 4)).toNat = _
    rw [BitVec.toNat_ofNat, Nat.mod_eq_of_lt (by omega)]
  refine ⟨?_, ?_, ?_, crcValid_buildFrame opcode (by omega)⟩
  · rw [hL]; simp only [config]; omega
  · rw [hL]; simp only [config]; omega
  · rw [hL]; simp [buildFrame]

end Sys2Proof.Machine
end

section
/-! The obligations of 41_crc.md. -/

namespace Sys2Proof.Machine

/-- Settles O24: each of the eight turns agrees with its turn over natural numbers. -/
theorem crcStepRule : Obligations.CrcStepRule := by
  intro crc b
  rw [crcStep, crcBits_toNat, toNat_xor_byte]
  rfl

/-- Settles O27: a valid sequence splits behind its region, and the check is then the comparison of numbers. -/
theorem crcValidRule : Obligations.CrcValidRule := by
  refine fun f => ⟨fun h => ?_, ?_⟩
  · obtain ⟨region, lo, hi, ignored, rfl, hregion⟩ := crcValid_split h
    exact ⟨region, lo, hi, ignored, rfl, hregion, (crcValid_region_iff hregion).1 h⟩
  · rintro ⟨region, lo, hi, ignored, rfl, hregion, hcrc⟩
    exact (crcValid_region_iff hregion).2 hcrc

/-- Settles O28: the register's own two bytes shift it out. -/
theorem crcResidueIsZero : Obligations.CrcResidueIsZero :=
  fun s => withCrc_eq s ▸ crc16_withCrc s

/-- Settles O29: the counter-example 00 00 is evaluated. -/
theorem crcRoundTrip : Obligations.CrcRoundTrip :=
  ⟨fun b _ _ hlen => withCrc_eq b ▸ crcValid_withCrc hlen, by decide +kernel⟩

/-- Settles O30: a changed byte changes the residue; the flips of F1's length byte are evaluated. -/
theorem singleBitFlipIsDetected : Obligations.SingleBitFlipIsDetected := by
  have hflip : ∀ (f : List Byte) (k bit : Nat), crcValid f = true → f.length = (byteAt f 0).toNat + 1 → 1 ≤ k →
      k ≤ (byteAt f 0).toNat → bit < 8 → crcValid (f.set k (byteAt f k ^^^ BitVec.twoPow 8 bit)) = false :=
    fun f k bit h hlen hpos hk hbit => crcValid_set h hlen hpos (by omega) (xor_twoPow_ne _ hbit)
  refine ⟨hflip, fun k hk bit hbit => ?_⟩
  cases k with
  | zero => revert bit; decide +kernel
  | succ k => exact hflip _ (k + 1) bit (by decide +kernel) rfl (by omega) (Nat.le_of_lt_succ hk) hbit

/-- Settles O38: with its length byte in range, a built frame is a valid frame, and a pass over it finds it. -/
theorem builtFramesAreValid : Obligations.BuiltFramesAreValid := by
  refine fun opcode payload h => ⟨⟨_, rfl, withCrc_eq _⟩, crcValid_buildFrame opcode h, fun hrange => ?_⟩
  have hlen : (buildFrame opcode payload).length = payload.length + 5 := by simp [buildFrame]
  rw [decodeScan_of_validFrame (validFrame_buildFrame opcode hrange), hlen]

/-- Settles O25: the run over one byte more is one step more. -/
theorem crcRunsOverBytes : Obligations.CrcRunsOverBytes :=
  ⟨rfl, fun s b => crc16_append s [b]⟩

/-- Settles O26: the check value is evaluated. -/
theorem crcCheckValue : Obligations.CrcCheckValue := by
  unfold Obligations.CrcCheckValue
  decide +kernel

/-- Settles O31: the corner values are evaluated. -/
theorem crc16Completes : Obligations.Crc16Completes := by
  refine ⟨fun s d hv => unlessFaulted_of_clear s hv, ?_⟩
  decide +kernel

/-- Settles O33: a valid frame has a length byte above 1 and all the bytes that it counts. -/
theorem verifyCrcCompletes : Obligations.VerifyCrcCompletes := by
  refine ⟨fun s f hv => unlessFaulted_of_clear s hv, fun f h => ?_, fun f h => ?_,
    fun f extra h => crcValid_append (by omega) extra⟩
  · exact Bool.eq_false_iff.2 fun hvalid => absurd (one_lt_of_crcValid hvalid) (by omega)
  · exact Bool.eq_false_iff.2 fun hvalid => absurd (lt_length_of_crcValid hvalid) (by omega)

end Sys2Proof.Machine
end

section
/-! SUPPORT. For the statements of 43_frame_decoder.md: the turns of the decode pass, the bytes it consumes, the bytes at
which it stops, a pass behind noise, and the state that a pass leaves. -/

namespace Sys2Proof.Machine

/-! ### The turns of the decode pass -/

/-- The bounds of a valid frame as the spec's numbers (R89). -/
theorem validFrame_iff {v : List Byte} :
    validFrame v ↔ 4 ≤ (byteAt v 0).toNat ∧ (byteAt v 0).toNat ≤ 250 ∧ v.length = (byteAt v 0).toNat + 1 ∧
      crcValid v = true := Iff.rfl

theorem five_le_length_of_validFrame {v : List Byte} (h : validFrame v) : 5 ≤ v.length := by
  obtain ⟨hmin, -, hlen, -⟩ := validFrame_iff.1 h
  omega

/-- Step 1 (R79). -/
theorem decodeScan_of_short {buf : List Byte} (h : buf.length < 5) : decodeScan buf = (0, []) :=
  (decodeScan_eq buf).trans (if_pos h)

/-- Step 3 (R81). -/
theorem decodeScan_of_partial {buf : List Byte} (hlen : 5 ≤ buf.length) (hmin : 4 ≤ (byteAt buf 0).toNat)
    (hmax : (byteAt buf 0).toNat ≤ 250) (hpartial : buf.length < (byteAt buf 0).toNat + 1) :
    decodeScan buf = (0, []) :=
  (decodeScan_eq buf).trans <| (if_neg (not_lt.2 hlen)).trans <|
    (if_neg (not_or.2 ⟨not_lt.2 hmin, not_lt.2 hmax⟩)).trans (if_pos hpartial)

/-- The pass skips a byte that is no length byte in range (step 2, R80), and one whose candidate is whole and not valid
(step 4, R82). -/
theorem decodeScan_of_no_candidate {buf : List Byte} (hlen : 5 ≤ buf.length)
    (hcand : 4 ≤ (byteAt buf 0).toNat → (byteAt buf 0).toNat ≤ 250 →
      (byteAt buf 0).toNat + 1 ≤ buf.length ∧ crcValid (buf.take ((byteAt buf 0).toNat + 1)) = false) :
    decodeScan buf = (1 + (decodeScan (buf.drop 1)).1, (decodeScan (buf.drop 1)).2) := by
  refine (decodeScan_eq buf).trans ((if_neg (not_lt.2 hlen)).trans ?_)
  by_cases hrange : (byteAt buf 0).toNat < 4 ∨ 250 < (byteAt buf 0).toNat
  · exact if_pos hrange
  · obtain ⟨hwhole, hinvalid⟩ := hcand (by omega) (by omega)
    exact (if_neg hrange).trans <| (if_neg (not_lt.2 hwhole)).trans (if_neg (by simp [hinvalid]))

/-- Step 4 for a valid candidate (R82): the pass takes it and goes on behind it. -/
theorem decodeScan_append_of_validFrame {v : List Byte} (h : validFrame v) (rest : List Byte) :
    decodeScan (v ++ rest) = (v.length + (decodeScan rest).1, v :: (decodeScan rest).2) := by
  rw [decodeScan_append, decodeScan_of_validFrame h]
  simp only [List.drop_length, List.nil_append, List.singleton_append]

/-- The bytes at which the pass stops (R88): too few for a candidate, or one partial candidate. -/
def Stalled (buf : List Byte) : Prop :=
  buf.length < 5 ∨
    (5 ≤ buf.length ∧ 4 ≤ (byteAt buf 0).toNat ∧ (byteAt buf 0).toNat ≤ 250 ∧ buf.length < (byteAt buf 0).toNat + 1)

/-- What one turn of the pass comes to. -/
inductive DecodeTurn (buf : List Byte) : Prop where
  | stops (stalled : Stalled buf) (eq : decodeScan buf = (0, []))
  | skips (pos : 1 ≤ buf.length)
      (eq : decodeScan buf = (1 + (decodeScan (buf.drop 1)).1, (decodeScan (buf.drop 1)).2))
  | takes (v rest : List Byte) (valid : validFrame v) (split : buf = v ++ rest)
      (eq : decodeScan buf = (v.length + (decodeScan rest).1, v :: (decodeScan rest).2))

theorem decodeTurn (buf : List Byte) : DecodeTurn buf := by
  by_cases hshort : buf.length < 5
  · exact .stops (.inl hshort) (decodeScan_of_short hshort)
  have hlen : 5 ≤ buf.length := not_lt.1 hshort
  by_cases hrange : 4 ≤ (byteAt buf 0).toNat ∧ (byteAt buf 0).toNat ≤ 250
  case neg =>
    exact .skips (by omega) (decodeScan_of_no_candidate hlen fun hmin hmax => absurd ⟨hmin, hmax⟩ hrange)
  obtain ⟨hmin, hmax⟩ := hrange
  by_cases hpartial : buf.length < (byteAt buf 0).toNat + 1
  · exact .stops (.inr ⟨hlen, hmin, hmax, hpartial⟩) (decodeScan_of_partial hlen hmin hmax hpartial)
  have hwhole : (byteAt buf 0).toNat + 1 ≤ buf.length := not_lt.1 hpartial
  cases hvalid : crcValid (buf.take ((byteAt buf 0).toNat + 1)) with
  | false => exact .skips (by omega) (decodeScan_of_no_candidate hlen fun _ _ => ⟨hwhole, hvalid⟩)
  | true =>
    have hbyte : byteAt (buf.take ((byteAt buf 0).toNat + 1)) 0 = byteAt buf 0 := byteAt_take (Nat.succ_pos _)
    have hframe : validFrame (buf.take ((byteAt buf 0).toNat + 1)) := by
      rw [validFrame_iff, hbyte]
      exact ⟨hmin, hmax, List.length_take_of_le hwhole, hvalid⟩
    have hsplit := List.take_append_drop ((byteAt buf 0).toNat + 1) buf
    have htake := decodeScan_append_of_validFrame hframe (buf.drop ((byteAt buf 0).toNat + 1))
    rw [hsplit] at htake
    exact .takes _ _ hframe hsplit.symm htake

/-- A stream in which a pass finds nothing to consume is one at which a turn stops. -/
theorem stalled_of_decodeScan_stops {buf : List Byte} (h : decodeScan buf = (0, [])) : Stalled buf := by
  cases decodeTurn buf with
  | stops stalled eq => exact stalled
  | skips pos eq =>
    obtain ⟨hcount, -⟩ := Prod.ext_iff.1 (h.symm.trans eq)
    simp only at hcount
    omega
  | takes v rest valid split eq =>
    obtain ⟨-, hframes⟩ := Prod.ext_iff.1 (h.symm.trans eq)
    exact absurd hframes (List.cons_ne_nil _ _).symm

/-- A pass over a part of a valid frame, short of its end, consumes nothing (R89). -/
theorem decodeScan_take_of_validFrame {v : List Byte} (h : validFrame v) {k : Nat} (hk : k < v.length) :
    decodeScan (v.take k) = (0, []) := by
  obtain ⟨hmin, hmax, hlen, -⟩ := validFrame_iff.1 h
  have htake : (v.take k).length = k := List.length_take_of_le hk.le
  by_cases hshort : k < 5
  · exact decodeScan_of_short (by omega)
  · have hbyte : byteAt (v.take k) 0 = byteAt v 0 := byteAt_take (by omega)
    rw [← hbyte] at hmin hmax hlen
    exact decodeScan_of_partial (by omega) hmin hmax (by omega)

/-! ### The bytes that a pass consumes -/

/-- `bytes` are the `frames`, whole and in order, each behind a gap, and a last gap. -/
def GapsAndFrames (bytes : List Byte) (frames : List (List Byte)) : Prop :=
  ∃ (gaps : List (List Byte)) (last : List Byte), gaps.length = frames.length ∧
    bytes = (List.zipWith (fun gap frame => gap ++ frame) gaps frames).flatten ++ last

theorem GapsAndFrames.nil : GapsAndFrames [] [] := ⟨[], [], rfl, rfl⟩

/-- One more skipped byte belongs to the first gap, which is the last one where there is no frame. -/
theorem GapsAndFrames.skip {bytes : List Byte} {frames : List (List Byte)} (h : GapsAndFrames bytes frames)
    (b : Byte) : GapsAndFrames (b :: bytes) frames := by
  obtain ⟨gaps, last, hcount, rfl⟩ := h
  cases frames with
  | nil => exact ⟨[], b :: last, rfl, by simp⟩
  | cons frame frames =>
    cases gaps with
    | nil => cases hcount
    | cons gap gaps => exact ⟨(b :: gap) :: gaps, last, hcount, rfl⟩

theorem GapsAndFrames.frame {bytes : List Byte} {frames : List (List Byte)} (h : GapsAndFrames bytes frames)
    (v : List Byte) : GapsAndFrames (v ++ bytes) (v :: frames) := by
  obtain ⟨gaps, last, hcount, rfl⟩ := h
  exact ⟨[] :: gaps, last, congrArg (· + 1) hcount, by simp⟩

theorem gapsAndFrames_of_decodeScan (buf : List Byte) :
    GapsAndFrames (buf.take (decodeScan buf).1) (decodeScan buf).2 := by
  induction buf using decodeScan_induction with
  | turn buf ih =>
    cases decodeTurn buf with
    | stops stalled eq => rw [eq]; exact .nil
    | skips pos eq =>
      obtain ⟨b, rest, rfl⟩ := List.exists_cons_of_length_pos pos
      rw [eq, Nat.add_comm, List.take_succ_cons]
      exact (ih 1 (le_refl _) pos).skip b
    | takes v rest valid split eq =>
      subst split
      have hv := five_le_length_of_validFrame valid
      have hrest := ih v.length (by omega) (by simp)
      rw [List.drop_left] at hrest
      rw [eq, List.take_length_add_append]
      exact hrest.frame v

/-! ### A pass behind noise -/

/-- No candidate that starts before index `n` is valid, and each of them with a length byte in range is whole: the two
conditions of R90. -/
def NoFrameBefore (n : Nat) (buf : List Byte) : Prop :=
  ∀ j < n, 4 ≤ (byteAt buf j).toNat → (byteAt buf j).toNat ≤ 250 →
    j + (byteAt buf j).toNat + 1 ≤ buf.length ∧ crcValid (slice buf j (j + (byteAt buf j).toNat + 1)) = false

theorem NoFrameBefore.tail {n : Nat} {b : Byte} {buf : List Byte} (h : NoFrameBefore (n + 1) (b :: buf)) :
    NoFrameBefore n buf := by
  intro j hj hmin hmax
  obtain ⟨hwhole, hinvalid⟩ := h (j + 1) (Nat.succ_lt_succ hj) hmin hmax
  rw [byteAt_cons_succ] at hwhole hinvalid
  have hslice := slice_append_right [b] buf j (j + (byteAt buf j).toNat + 1)
  rw [List.length_singleton, List.singleton_append, Nat.add_comm 1 j,
    show 1 + (j + (byteAt buf j).toNat + 1) = j + 1 + (byteAt buf j).toNat + 1 by omega] at hslice
  rw [List.length_cons] at hwhole
  exact ⟨by omega, hslice ▸ hinvalid⟩

theorem NoFrameBefore.decodeScan_cons {n : Nat} {b : Byte} {buf : List Byte} (h : NoFrameBefore (n + 1) (b :: buf))
    (hlen : 5 ≤ buf.length) : decodeScan (b :: buf) = (1 + (decodeScan buf).1, (decodeScan buf).2) := by
  refine decodeScan_of_no_candidate (Nat.le_succ_of_le hlen) fun hmin hmax => ?_
  have hcand := h 0 (Nat.succ_pos n) hmin hmax
  rwa [Nat.zero_add] at hcand

/-- Behind noise with enough bytes to read a candidate, the pass goes on where the noise ends, with no frame found. -/
theorem decodeScan_append_of_noise {noise rest : List Byte} (h : NoFrameBefore noise.length (noise ++ rest))
    (hlen : 5 ≤ rest.length) :
    decodeScan (noise ++ rest) = (noise.length + (decodeScan rest).1, (decodeScan rest).2) := by
  induction noise with
  | nil => simp
  | cons b noise ih =>
    have hrest : 5 ≤ (noise ++ rest).length := by rw [List.length_append]; omega
    have hnoise : NoFrameBefore (noise.length + 1) (b :: (noise ++ rest)) := h
    rw [List.cons_append, hnoise.decodeScan_cons hrest, ih hnoise.tail, List.length_cons, Nat.add_comm noise.length 1,
      Nat.add_assoc]

/-! ### The state that a pass leaves -/

/-- `t` is the state that a decode pass over the stream `bs` leaves of `s` (R83, R84, R85). -/
structure AfterPass (events : List Byte → List Event) (s : State) (bs : List Byte) (t : State) : Prop where
  holds : Holds t (bs.drop (decodeScan bs).1)
  out : t.out = s.out ++ (decodeScan bs).2.flatMap events ++ [.consumedOut (decodeScan bs).1]
  fault : t.fault = s.fault
  cap : t.rxCap = s.rxCap
  port : t.port = s.port

/-- In a state that holds a stream and has FAULT clear, an instruction that is a decode pass completes. -/
theorem Holds.completes_decodePass {s : State} {bs : List Byte} (h : Holds s bs) (hcap : s.rxCap ≤ 65535)
    (hclear : s.fault.valid = false) (events : List Byte → List Event) :
    ∃ t, unlessFaulted s (Machine.decodePass events s) = .next t ∧ AfterPass events s bs t := by
  have hkept : (bs.drop (decodeScan bs).1).length ≤ s.rxCap := by
    rw [List.length_drop]; exact le_trans (Nat.sub_le _ _) h.fits
  have hpass := (unlessFaulted_of_clear s hclear).trans (h.decodePass events)
  rw [← List.length_drop] at hpass
  exact ⟨_, hpass, Holds.setRx _ _ hkept hcap, (List.append_assoc _ _ _).symm, rfl, rfl, rfl⟩

/-- DECODE emits one FrameOut for each frame. -/
theorem AfterPass.out_decode {s t : State} {bs : List Byte} (h : AfterPass (fun f => [.frameOut f]) s bs t) :
    t.out = s.out ++ (decodeScan bs).2.map .frameOut ++ [.consumedOut (decodeScan bs).1] := by
  rw [List.map_eq_flatMap]
  exact h.out

theorem AfterPass.rxLen {events : List Byte → List Event} {s t : State} {bs : List Byte}
    (h : AfterPass events s bs t) : t.rxLen.toNat = bs.length - (decodeScan bs).1 := by
  rw [h.holds.len, List.length_drop]

/-- What DECODE or PROCESS leaves of a legal state with FAULT clear: a stream in which a pass finds nothing to consume. -/
theorem holds_stalled_of_exec {s t : State} {i : Instr} (hs : s.Inv) (hclear : s.fault.valid = false)
    (hi : i = .decode ∨ i = .process) (h : exec i s = .next t) :
    ∃ bs, Holds t bs ∧ decodeScan bs = (0, []) ∧ t.fault = s.fault ∧ t.rxCap = s.rxCap := by
  have hpass : ∃ events, exec i s = unlessFaulted s (decodePass events s) := by
    rcases hi with rfl | rfl
    · exact ⟨_, rfl⟩
    · exact ⟨_, rfl⟩
  obtain ⟨events, hev⟩ := hpass
  have hh := hs.holds
  obtain ⟨-, hmax, -⟩ := hs
  obtain ⟨u, hu, hafter⟩ := hh.completes_decodePass hmax hclear events
  cases (hev.trans hu).symm.trans h
  exact ⟨_, hafter.holds, decodeScan_retained _, hafter.fault, hafter.cap⟩

/-- In a legal state with RXLEN 0 the buffered stream is empty. -/
theorem State.Inv.holds_nil {s : State} (h : s.Inv) (hlen : s.rxLen = 0) : Holds s [] := by
  have hh := h.holds
  have hnil : s.rxbuf.map Prod.snd = [] := List.eq_nil_of_length_eq_zero (by rw [← hh.len, hlen]; rfl)
  rwa [hnil] at hh

/-- Serving an RX_PUSH that fits and the DECODE behind it: one pass over the stream and the pushed bytes. -/
theorem Holds.run_push_decode {s : State} {bs data : List Byte} {rest : List Transaction} (h : Holds s bs)
    (hcap : s.rxCap ≤ 65535) (hclear : s.fault.valid = false) (hfit : (bs ++ data).length ≤ s.rxCap)
    (hport : s.port = ⟨BitVec.ofNat 32 (0x70000000 + data.length), data⟩ :: ⟨0x80000000, []⟩ :: rest) :
    ∃ t, (∀ k, Host.Core.run Sys2Proof.core (k + 2) s = Host.Core.run Sys2Proof.core k t) ∧
      Holds t ((bs ++ data).drop (decodeScan (bs ++ data)).1) ∧
      t.out = s.out ++ (decodeScan (bs ++ data)).2.map .frameOut ++ [.consumedOut (decodeScan (bs ++ data)).1] ∧
      t.fault = s.fault ∧ t.rxCap = s.rxCap ∧ t.port = rest := by
  have hword : BitVec.ofNat 32 (0x70000000 + data.length) = makeCw 0x7 0 data.length :=
    (makeCw_eq_ofNat 0x7 (by rw [List.length_append] at hfit; omega)).symm
  rw [hword] at hport
  obtain ⟨t, ht, htholds, htport, htfault, htcap, htout⟩ := h.step_rxPush hcap hclear hfit hport
  obtain ⟨u, hu, hafter⟩ :=
    (htholds.setPort rest).completes_decodePass (htcap ▸ hcap) (htfault ▸ hclear) (fun f => [.frameOut f])
  have hstep : step t = .next u := (step_of_decodeOp htport decodeOp_decode).trans hu
  refine ⟨u, fun k => (run_succ_of_step (M := Sys2Proof.core) ht _).trans (run_succ_of_step hstep k),
    hafter.holds, ?_, hafter.fault.trans htfault, hafter.cap.trans htcap, hafter.port⟩
  rw [hafter.out_decode, State.setPort_out, htout]

end Sys2Proof.Machine
end

section
/-! The obligations of 43_frame_decoder.md. -/

namespace Sys2Proof.Machine

/-- Settles O41: each clause is one turn of the pass; an invalid candidate stands whole at the front, so its first byte is
skipped. -/
theorem decodePassSteps : Obligations.DecodePassSteps := by
  refine ⟨fun _ => decodeScan_of_short, fun buf hlen hrange => ?_, fun _ => decodeScan_of_partial,
    fun cand rest hmin hmax hlen hvalid => decodeScan_append_of_validFrame ⟨hmin, hmax, hlen, hvalid⟩ rest,
    fun cand rest hmin hmax hlen hinvalid => ?_⟩
  · exact decodeScan_of_no_candidate hlen fun hmin hmax => by omega
  · have hbyte : byteAt (cand ++ rest) 0 = byteAt cand 0 := byteAt_append_left (by omega)
    refine decodeScan_of_no_candidate (by rw [List.length_append]; omega) fun _ _ => ?_
    rw [hbyte, ← hlen, List.take_left]
    exact ⟨by simp, hinvalid⟩

/-- Settles O42: each turn of the pass adds a skipped byte to the first gap or puts a frame with an empty gap in front. -/
theorem framesComeFromConsumedBytes : Obligations.FramesComeFromConsumedBytes := by
  intro buf
  obtain ⟨hle, hframes⟩ := decodeScan_sound buf
  refine ⟨hle, gapsAndFrames_of_decodeScan buf, fun f hf => ?_⟩
  obtain ⟨-, hvalid⟩ := hframes f hf
  exact hvalid

/-- Settles O43: DECODE is one pass over the buffered stream. -/
theorem decodeCompletes : Obligations.DecodeCompletes := by
  intro s bs hs hclear hr
  have hh := hs.holds_of_received hr
  obtain ⟨-, hmax, -⟩ := hs
  obtain ⟨t, ht, hafter⟩ := hh.completes_decodePass hmax hclear (fun f => [.frameOut f])
  exact ⟨t, ht, hafter.out_decode, hafter.holds.received, hafter.rxLen, hafter.fault, hafter.cap, hafter.port⟩

/-- Settles O44: PROCESS is one pass over the buffered stream, and the stream it leaves is the one DECODE leaves. -/
theorem processCompletes : Obligations.ProcessCompletes := by
  intro s bs hs hclear hr
  have hh := hs.holds_of_received hr
  obtain ⟨-, hmax, -⟩ := hs
  obtain ⟨t, ht, hafter⟩ := hh.completes_decodePass hmax hclear (fun f => .frameOut f :: tagEvents f)
  obtain ⟨u, hu, hafterDecode⟩ := hh.completes_decodePass hmax hclear (fun f => [.frameOut f])
  exact ⟨t, u, ht, hu, hafter.out, hafter.holds.received, hafter.holds.buf.trans hafterDecode.holds.buf.symm,
    BitVec.eq_of_toNat_eq (hafter.rxLen.trans hafterDecode.rxLen.symm), hafter.fault, hafter.cap, hafter.port⟩

/-- Settles O45: the stream left is one at which a turn of the pass stops, and its first byte is that of RXBUF. -/
theorem retainedAfterDecode : Obligations.RetainedAfterDecode := by
  intro s t i hs hclear hi h
  obtain ⟨bs, hh, hstops, -, hcap⟩ := holds_stalled_of_exec hs hclear hi h
  obtain ⟨hmin, -⟩ := hs
  have hmin' : 251 ≤ t.rxCap := hcap ▸ hmin
  have hle : bs.length ≤ 250 := length_le_of_decodeScan_stops hstops
  rw [hh.len]
  refine ⟨?_, hle, by omega, by omega⟩
  rcases stalled_of_decodeScan_stops hstops with hshort | ⟨hlen, hb⟩
  · exact .inl ⟨hshort, fun ⟨hlong, _⟩ => absurd hlong (not_le.2 hshort)⟩
  · have hget : Memory.get t.rxbuf 0 = some (byteAt bs 0) := by
      rw [hh.get, byteAt, List.getD_eq_getElem _ _ (by omega), List.getElem?_eq_getElem]
    exact .inr ⟨not_lt.2 hlen, hlen, byteAt bs 0, hget, hb⟩

/-- Settles O46: the first pass stops at the partial frame, and the second finds the whole one. -/
theorem splitReads : Obligations.SplitReads := by
  intro s v k hs hclear hlen hv _ hk hport
  have hh := hs.holds_nil hlen
  obtain ⟨hmin, hmax, -⟩ := hs
  have hvcap : v.length ≤ s.rxCap := by
    obtain ⟨-, hle, hvlen, -⟩ := validFrame_iff.1 hv
    have hmin' : 251 ≤ s.rxCap := hmin
    omega
  have hfirst : (v.take k).length = k := List.length_take_of_le hk.le
  have hport' := hport
  rw [← List.length_drop, ← congrArg (0x70000000 + ·) hfirst] at hport'
  obtain ⟨t, hrun, htholds, htout, htfault, htcap, htport⟩ :=
    hh.run_push_decode hmax hclear (by rw [List.nil_append, hfirst]; omega) hport'
  rw [List.nil_append, decodeScan_take_of_validFrame hv hk] at htholds htout
  have hwhole : v.take k ++ v.drop k = v := List.take_append_drop k v
  obtain ⟨u, hrun', huholds, huout, -, -, -⟩ :=
    htholds.run_push_decode (data := v.drop k) (htcap ▸ hmax) (htfault ▸ hclear)
      (by rw [List.drop_zero, hwhole, htcap]; exact hvcap) htport
  rw [List.drop_zero, hwhole, decodeScan_of_validFrame hv] at huholds huout
  refine ⟨t, u, hrun 0, by simpa using htout, htholds.len.trans hfirst, (hrun 2).trans (hrun' 0), ?_, ?_⟩
  · simp [huout, htout]
  · exact BitVec.eq_of_toNat_eq (huholds.len.trans (by simp))

/-- Settles O47: the pass goes on where the noise ends, which is at the frame; the byte 0xF0 of the counter-example asks for
more bytes than there are. -/
theorem resynchronization : Obligations.Resynchronization := by
  refine ⟨fun g v h hv hnoise => ?_, decodeScan_of_partial (by decide) (by decide) (by decide) (by decide)⟩
  rw [List.append_assoc] at hnoise ⊢
  have hlen : 5 ≤ (v ++ h).length := by
    rw [List.length_append]
    exact Nat.le_add_right_of_le (five_le_length_of_validFrame hv)
  rw [decodeScan_append_of_noise hnoise hlen, decodeScan_append_of_validFrame hv, Nat.add_assoc]

/-- Settles O50: a pass leaves at most 250 bytes, so the push fits. -/
theorem pushAfterDecodeNeverOverflows : Obligations.PushAfterDecodeNeverOverflows := by
  intro s t i d hs hclear hi h hd
  obtain ⟨bs, hh, hstops, hfault, hcap⟩ := holds_stalled_of_exec hs hclear hi h
  obtain ⟨hmin, hmax, -⟩ := hs
  have hmin' : 251 ≤ t.rxCap := hcap ▸ hmin
  have hle : bs.length ≤ 250 := length_le_of_decodeScan_stops hstops
  have hfit : (bs ++ d).length ≤ t.rxCap := by rw [List.length_append]; omega
  have hclear' : t.fault.valid = false := hfault ▸ hclear
  have hpush := hh.execRxPush (data := d) hclear' (List.length_append ▸ hfit)
  rw [← List.length_append] at hpush
  refine ⟨_, hpush, hclear', ?_⟩
  rw [(Holds.setRx t (bs ++ d) hfit (hcap ▸ hmax)).len, List.length_append, hh.len]

end Sys2Proof.Machine
end

section
/-! SUPPORT. For the statements of 44_tag_decoder.md: the gate before the record loop, and which bytes the loop reads. -/

namespace Sys2Proof.Machine

/-! ### The gate -/

/-- The frame is complete (R103) and passes the gate of R93. It then has its header and count byte: it is longer than
TAG_MIN_LEN. -/
structure PassesTagGate (f : List Byte) : Prop where
  complete : (byteAt f 0).toNat + 1 ≤ f.length
  command : byteAt f 2 = config.cmdInventory
  status : byteAt f 3 ∈ config.tagStatusSet
  minLen : config.tagMinLen ≤ (byteAt f 0).toNat

theorem tagRecords_of_passesTagGate {f : List Byte} (h : PassesTagGate f) :
    tagRecords f = tagLoop f ((byteAt f 0).toNat - 1) (byteAt f 4).toNat 5 := by
  obtain ⟨hcomplete, hcommand, hstatus, hmin⟩ := h
  have hheader : ¬ f.length < config.hdrLen + 1 := by simp only [config] at hmin ⊢; omega
  simp only [tagRecords]
  rw [if_neg hheader, if_neg (by omega), if_neg (not_not.2 hcommand), if_neg (not_not.2 hstatus), if_neg hmin.not_gt]
  rfl

theorem tagRecords_of_not_passesTagGate {f : List Byte} (h : ¬ PassesTagGate f) : tagRecords f = [] := by
  simp only [tagRecords]
  split_ifs with _ hcomplete hcommand hstatus hmin
  case neg => exact absurd ⟨by omega, not_not.1 hcommand, hstatus, not_lt.1 hmin⟩ h
  all_goals rfl

/-- Frames that agree on the header below the count byte both pass the gate or both fail it. -/
theorem PassesTagGate.congr {f g : List Byte} (h : PassesTagGate f) (hcomplete : (byteAt g 0).toNat + 1 ≤ g.length)
    (heq : ∀ k < 4, byteAt f k = byteAt g k) : PassesTagGate g where
  complete := hcomplete
  command := heq 2 (by omega) ▸ h.command
  status := heq 3 (by omega) ▸ h.status
  minLen := heq 0 (by omega) ▸ h.minLen

/-! ### The bytes that the record loop reads -/

/-- A record takes at least 5 bytes: the PC word, an EPC of 2 bytes and the RSSI. -/
theorem tagLoop_of_short {f : List Byte} {stop pos : Nat} (h : stop < pos + 5) (num : Nat) :
    tagLoop f stop num pos = [] := by
  cases num with
  | zero => rfl
  | succ num =>
    rw [tagLoop]
    split
    · rfl
    · obtain ⟨hepc, -, -⟩ := epcLen_bounds (bigEndian (byteAt f pos) (byteAt f (pos + 1)))
      exact if_pos (by omega)

theorem slice_take {s : List Byte} {b n : Nat} (h : b ≤ n) (a : Nat) : slice (s.take n) a b = slice s a b := by
  rw [slice, List.drop_take, List.take_take, min_eq_left (Nat.sub_le_sub_right h a), slice]

/-- The record loop reads only bytes before the trailer (R94). -/
theorem tagLoop_take (f : List Byte) (stop num pos : Nat) :
    tagLoop (f.take stop) stop num pos = tagLoop f stop num pos := by
  induction num generalizing pos with
  | zero => rfl
  | succ num ih =>
    simp only [tagLoop]
    split
    · rfl
    · next hpc =>
      rw [byteAt_take (by omega : pos < stop), byteAt_take (by omega : pos + 1 < stop)]
      split
      · rfl
      · rw [slice_take (by omega), byteAt_take (by omega), ih]

theorem take_eq_take_of_byteAt {f g : List Byte} {n : Nat} (hf : n ≤ f.length) (hg : n ≤ g.length)
    (h : ∀ k < n, byteAt f k = byteAt g k) : f.take n = g.take n := by
  refine List.ext_getElem (by simp [hf, hg]) fun k hkf hkg => ?_
  have hk : k < n := by rw [List.length_take] at hkf; omega
  have hbyte := h k hk
  rwa [byteAt, byteAt, List.getD_eq_getElem f 0 (by omega), List.getD_eq_getElem g 0 (by omega),
    ← List.getElem_take (h := hkf), ← List.getElem_take (h := hkg)] at hbyte

end Sys2Proof.Machine
end

section
/-! The obligations of 44_tag_decoder.md. -/

namespace Sys2Proof.Machine

/-- Settles O52: a frame with records passes the gate, and a region of fewer than 5 bytes holds no record. -/
theorem tagGate : Obligations.TagGate := by
  intro f hrecords
  have hgate : PassesTagGate f := by
    by_contra hfails
    exact hrecords (tagRecords_of_not_passesTagGate hfails)
  rw [tagRecords_of_passesTagGate hgate] at hrecords
  have hregion : 11 ≤ (byteAt f 0).toNat := by
    by_contra hshort
    exact hrecords (tagLoop_of_short (by omega) _)
  obtain ⟨-, hcommand, hstatus, hmin⟩ := hgate
  exact ⟨hcommand, by simpa [config] using hstatus, hmin, hregion⟩

/-- Settles O53: the length is a function of the top five bits, as a number. -/
theorem epcLengthFromPc : Obligations.EpcLengthFromPc :=
  ⟨epcLen_eq, epcLen_bounds, fun p q h => by rw [epcLen_eq, epcLen_eq, h]⟩

/-- Settles O56: the bounds of the record loop, which begins behind the count byte. -/
theorem tagRecordBounds : Obligations.TagRecordBounds := by
  intro f
  by_cases hgate : PassesTagGate f
  · rw [tagRecords_of_passesTagGate hgate]
    exact tagLoop_bounds f _ _ _ (by have := hgate.complete; omega)
  · simp [tagRecords_of_not_passesTagGate hgate]

/-- Settles O57: an incomplete frame fails the gate, and the gate and the record loop read nothing from the trailer on. -/
theorem tagDecodeIgnoresTrailerAndTail : Obligations.TagDecodeIgnoresTrailerAndTail := by
  refine ⟨fun f hshort => ?_, fun f hshort => ?_, fun f g hf hg heq => ?_⟩
  · refine tagRecords_of_not_passesTagGate fun ⟨hcomplete, _, _, hmin⟩ => ?_
    simp only [config] at hmin
    omega
  · exact tagRecords_of_not_passesTagGate fun hgate => absurd hgate.complete (by omega)
  · have hheader : ∀ k < 5, byteAt f k = byteAt g k := fun k hk => heq k (.inl hk)
    have hlen := hheader 0 (by omega)
    by_cases hgate : PassesTagGate f
    · have hgate' : PassesTagGate g := hgate.congr (hlen ▸ hg) fun k hk => hheader k (by omega)
      rw [tagRecords_of_passesTagGate hgate, tagRecords_of_passesTagGate hgate', ← hlen, ← hheader 4 (by omega),
        ← tagLoop_take f, ← tagLoop_take g,
        take_eq_take_of_byteAt (by omega) (by omega) fun k hk => heq k (.inr hk)]
    · have hgate' : ¬ PassesTagGate g := fun h => hgate (h.congr hf fun k hk => (hheader k (by omega)).symm)
      rw [tagRecords_of_not_passesTagGate hgate, tagRecords_of_not_passesTagGate hgate']

/-- Settles O51: with FAULT clear TAG_DECODE emits the TagOut events of its frame. -/
theorem tagDecodeCompletes : Obligations.TagDecodeCompletes := by
  intro s f hclear
  exact unlessFaulted_of_clear s hclear

end Sys2Proof.Machine
end

section
/-! SUPPORT. For the statements of 60_exceptions.md: the check of R111 over the bits of the word as numbers, and the one
answer the step gives to a complete transaction whose check passes, whose check gives a cause, that is RESET, and that
comes to a faulted engine. -/

namespace Sys2Proof.Machine

/-! ### The check of a word -/

/-- Where `checkWord` passes, only the last check of R111 is left, which is RX_PUSH's. -/
theorem check_of_checkWord_none {cw : CommandWord} (h : checkWord cw = none) (s : State) :
    check cw s =
      if cw.toNat / 2 ^ 28 = 7 ∧ s.rxCap < s.rxLen.toNat + cw.toNat % 2 ^ 16 then some .rxOverflow else none := by
  have hop : cwOp cw = 0x7 ↔ cw.toNat / 2 ^ 28 = 7 := by rw [← cwOp_toNat, BitVec.toNat_eq]; rfl
  simp only [check, h, hop, overflows, cwCount_eq, decide_eq_true_eq]

/-- `check` over the bits of CW as numbers (R111). -/
theorem check_eq (cw : CommandWord) (s : State) :
    check cw s =
      if cw.toNat / 2 ^ 28 = 15 then none
      else if cw.toNat / 2 ^ 28 = 0 ∨ 11 ≤ cw.toNat / 2 ^ 28 then some .illegalOp
      else if cw.toNat / 2 ^ 16 % 2 ^ 12 ≠ 0 then some .reservedBits
      else if cw.toNat / 2 ^ 28 = 4 ∧ cw.toNat % 2 ^ 16 ≠ 5 then some .operandCount
      else if cw.toNat / 2 ^ 28 = 6 ∧ cw.toNat % 2 ^ 16 ≠ 1 then some .operandCount
      else if (cw.toNat / 2 ^ 28 = 5 ∨ cw.toNat / 2 ^ 28 = 8 ∨ cw.toNat / 2 ^ 28 = 10) ∧ cw.toNat % 2 ^ 16 ≠ 0 then
        some .operandCount
      else if cw.toNat / 2 ^ 28 = 7 ∧ s.rxCap < s.rxLen.toNat + cw.toNat % 2 ^ 16 then some .rxOverflow
      else none := by
  have hword := checkWord_eq cw
  split_ifs at hword ⊢ with hreset hillegal hrsv hfive hone hzero hpush
  · rw [check_of_checkWord_none hword, if_neg (by omega)]
  iterate 5 exact check_of_checkWord_some hword s
  · exact (check_of_checkWord_none hword s).trans (if_pos hpush)
  · exact (check_of_checkWord_none hword s).trans (if_neg hpush)

/-- A word whose check gives a cause fails the word's own checks, or is an RX_PUSH that does not fit. -/
theorem check_eq_some {cw : CommandWord} {s : State} {c : Cause} (h : check cw s = some c) :
    checkWord cw = some c ∨
      (checkWord cw = none ∧ cwOp cw = 0x7 ∧ overflows s (cwCount cw) = true ∧ c = .rxOverflow) := by
  cases hc : checkWord cw with
  | some d => exact .inl ((check_of_checkWord_some hc s).symm.trans h)
  | none =>
    simp only [check, hc] at h
    split at h
    · next hpush => cases h; exact .inr ⟨rfl, hpush.1, hpush.2, rfl⟩
    · cases h

theorem checkWord_of_check_none {cw : CommandWord} {s : State} (h : check cw s = none) : checkWord cw = none := by
  cases hc : checkWord cw with
  | none => rfl
  | some c => cases (check_of_checkWord_some hc s).symm.trans h

theorem checkWord_of_op_reset {cw : CommandWord} (h : cwOp cw = 0xF) : checkWord cw = none := by simp [checkWord, h]

/-! ### Fault entry and the faulted engine -/

/-- Fault entry changes FAULT at most (R112). -/
theorem raiseFault_eq_setFault (c : Cause) (cw : CommandWord) (s : State) :
    raiseFault c cw s = s.setFault (raiseFault c cw s).fault := by
  rw [raiseFault_eq]; split <;> rfl

/-- RX_PUSH of bytes that do not fit is fault entry, which a faulted engine ignores. -/
theorem execRxPush_of_overflows {s : State} {data : List Byte} (h : overflows s data.length = true) :
    execRxPush data s = .next (raiseFault .rxOverflow (makeCw 0x7 0 data.length) s) := by
  rw [execRxPush, if_pos h]
  cases hv : s.fault.valid with
  | true => rw [unlessFaulted_of_valid s hv, raiseFault_of_valid s hv]
  | false => rw [unlessFaulted_of_clear s hv]

/-- A faulted engine ignores every instruction but RESET (R113). -/
theorem exec_of_faulted {s : State} {i : Instr} (hv : s.fault.valid = true)
    (hreset : ∀ rsv discarded, i ≠ .reset rsv discarded) : exec i s = .next s := by
  cases execShape i with
  | emits es legal eq => rw [eq]; exact unlessFaulted_of_valid s hv
  | pushes data eq => subst eq; exact unlessFaulted_of_valid s hv
  | decodes events legal eq => rw [eq]; exact unlessFaulted_of_valid s hv
  | resets rsv discarded eq => exact absurd eq (hreset rsv discarded)
  | receives address status body eq =>
    subst eq
    exact (exec_wireInventoryResponse (unlessFaulted_of_valid s hv)).trans (unlessFaulted_of_valid s hv)

/-! ### The step on a complete transaction -/

section
variable {s : State} {t : Transaction} {rest : List Transaction}

/-- A word that fails its own checks enters its fault (R111, R112). -/
theorem step_of_checkWord_some (hp : s.port = t :: rest) (hl : t.data.length = cwCount t.cw) {c : Cause}
    (hc : checkWord t.cw = some c) : step s = .next (raiseFault c t.cw (s.setPort rest)) := by
  simp [step, fetch_complete hp hl, decode, decodeOp_complete hl, hc]

/-- A word that passes its own checks runs the operation that OP selects (R41, R111). -/
theorem step_of_checkWord_none (hp : s.port = t :: rest) (hl : t.data.length = cwCount t.cw)
    (hc : checkWord t.cw = none) :
    ∃ i, operation (cwOp t.cw) (cwRsv t.cw) t.data = .ok i ∧ decodeOp t = .ok i ∧ step s = exec i (s.setPort rest) := by
  obtain ⟨i, hi⟩ := operation_ok hl hc
  have hd : decodeOp t = .ok i := by rw [decodeOp_complete hl, hc, hi]
  exact ⟨i, hi, hd, step_of_decodeOp hp hd⟩

/-- A word whose check gives a cause is served by fault entry alone (R112); the overflow of RX_PUSH is entered with the
word that was served (log 15). -/
theorem step_of_check_some (hp : s.port = t :: rest) (hl : t.data.length = cwCount t.cw) {c : Cause}
    (hc : check t.cw s = some c) : step s = .next (raiseFault c t.cw (s.setPort rest)) := by
  rcases check_eq_some hc with hword | ⟨hword, hop, hover, rfl⟩
  · exact step_of_checkWord_some hp hl hword
  · obtain ⟨i, hi, -, hs⟩ := step_of_checkWord_none hp hl hword
    rw [hop] at hi
    cases hi
    have hover' : overflows (s.setPort rest) t.data.length = true := hl ▸ hover
    rw [hs, ← makeCw_rxPush hop hword, ← hl]
    exact execRxPush_of_overflows hover'

/-- RESET is served in every state (R113, R123). -/
theorem step_of_op_reset (hp : s.port = t :: rest) (hl : t.data.length = cwCount t.cw) (hop : cwOp t.cw = 0xF) :
    step s = .next (resetEngine (s.setPort rest)) := by
  obtain ⟨i, hi, -, hs⟩ := step_of_checkWord_none hp hl (checkWord_of_op_reset hop)
  rw [hop] at hi
  cases hi
  exact hs

/-- A faulted engine takes every operation but RESET off the port and does nothing else (R113). -/
theorem step_of_faulted (hp : s.port = t :: rest) (hl : t.data.length = cwCount t.cw) (hv : s.fault.valid = true)
    (hop : cwOp t.cw ≠ 0xF) : step s = .next (s.setPort rest) := by
  cases hc : checkWord t.cw with
  | some c => rw [step_of_checkWord_some hp hl hc, raiseFault_of_valid (s.setPort rest) hv]
  | none =>
    obtain ⟨i, hi, -, hs⟩ := step_of_checkWord_none hp hl hc
    rw [hs]
    refine exec_of_faulted hv fun rsv discarded heq => ?_
    rcases operation_cases hi with ⟨hF, -⟩ | ⟨-, hpush⟩ | ⟨-, -, -, hreset, -⟩
    · exact hop hF
    · cases hpush.symm.trans heq
    · exact hreset rsv discarded heq

end

end Sys2Proof.Machine
end

section
/-! The obligations of 60_exceptions.md. -/

namespace Sys2Proof.Machine

/-- Settles O7: a complete transaction runs where its check passes, and enters a fault where it gives a cause. -/
theorem checkOrder : Obligations.CheckOrder := by
  refine ⟨fun s cw => check_eq cw s, fun s t rest hp hl hc => ?_, fun s t rest c hp hl hc => ?_,
    fun s t rest hp hl => ?_, fun s => check_of_checkWord_some (by decide) s⟩
  · obtain ⟨i, -, hd, hs⟩ := step_of_checkWord_none hp (hl.trans (cwCount_eq _).symm) (checkWord_of_check_none hc)
    exact ⟨i, hd, hs⟩
  · rw [step_of_check_some hp (hl.trans (cwCount_eq _).symm) hc, raiseFault_eq_setFault]
    exact ⟨_, rfl⟩
  · obtain ⟨-, hserve⟩ := stepServesCompleteOperationsOnly s
    exact (hserve t rest hp).1 hl

/-- Settles O8: a cause is served by fault entry, which writes FAULT alone. -/
theorem faultEntryWritesFaultAlone : Obligations.FaultEntryWritesFaultAlone := by
  intro s t rest c hp hl hv hc
  rw [step_of_check_some hp (hl.trans (cwCount_eq _).symm) hc, raiseFault_of_clear (s.setPort rest) hv]
  cases c <;> rfl

/-- Settles O9: fault entry and every instruction but RESET do nothing in a faulted engine. -/
theorem faultedEngineIgnores : Obligations.FaultedEngineIgnores :=
  fun _ t _ hv hp hl hop =>
    step_of_faulted hp (hl.trans (cwCount_eq _).symm) hv (mt (cwOp_eq_reset_iff t.cw).1 hop)

/-- Settles O10: a step that changes FAULT has served a complete transaction, and in a faulted engine that is RESET. -/
theorem onlyResetClearsFault : Obligations.OnlyResetClearsFault := by
  intro s t hv hstep hne
  rcases step_cases s with ⟨hs, -⟩ | ⟨hs, -⟩ | ⟨op, rest, hp, hl, -⟩
  · cases hs.symm.trans hstep
    exact absurd rfl hne
  · cases hs.symm.trans hstep
  · have hop : cwOp op.cw = 0xF := by
      by_contra hop
      cases (step_of_faulted hp hl hv hop).symm.trans hstep
      exact hne rfl
    cases (step_of_op_reset hp hl hop).symm.trans hstep
    exact ⟨rfl, rfl, rfl, rfl, op, rest, hp, (cwOp_eq_reset_iff _).1 hop⟩

end Sys2Proof.Machine
end

section
/-! SUPPORT. For the statements of 70_reset_and_hazards.md: a decode pass over bytes in front of which no valid candidate
reaches into the bytes behind them, and RESET. -/

namespace Sys2Proof.Machine

/-! ### A pass up to an index that no frame straddles -/

/-- No valid candidate with a length byte in range starts before index `n` and ends behind it: the condition of R126. -/
def NoFrameAcross (n : Nat) (buf : List Byte) : Prop :=
  ∀ j < n, 4 ≤ (byteAt buf j).toNat → (byteAt buf j).toNat ≤ 250 → n < j + (byteAt buf j).toNat + 1 →
    crcValid (slice buf j (j + (byteAt buf j).toNat + 1)) = false

/-- The condition stays as the pass moves on. -/
theorem NoFrameAcross.of_append {front buf : List Byte} {n : Nat}
    (h : NoFrameAcross (front.length + n) (front ++ buf)) : NoFrameAcross n buf := by
  intro j hj hmin hmax hacross
  have hbyte : byteAt (front ++ buf) (front.length + j) = byteAt buf j := by
    rw [byteAt_append_right (Nat.le_add_right _ _), Nat.add_sub_cancel_left]
  have hinvalid := h (front.length + j) (by omega)
  rw [hbyte, Nat.add_assoc, Nat.add_assoc, slice_append_right] at hinvalid
  exact hinvalid hmin hmax (by omega)

/-- A valid frame at the front of the stream does not straddle the index, so it ends there at the latest. -/
theorem NoFrameAcross.length_le_of_validFrame {v rest : List Byte} {n : Nat} (h : NoFrameAcross n (v ++ rest))
    (hn : 0 < n) (hv : validFrame v) : v.length ≤ n := by
  have hpos : 0 < v.length := Nat.zero_lt_of_lt (five_le_length_of_validFrame hv)
  obtain ⟨hmin, hmax, hlen, hvalid⟩ := validFrame_iff.1 hv
  by_contra hacross
  have hinvalid := h 0 hn
  rw [byteAt_append_left hpos, Nat.zero_add, ← hlen] at hinvalid
  have hslice : slice (v ++ rest) 0 v.length = v := List.take_left
  rw [hslice, hvalid] at hinvalid
  exact absurd (hinvalid hmin hmax (by omega)) (by decide)

/-- A turn stops only where there are at most LEN_MAX bytes. -/
theorem length_le_of_stalled {buf : List Byte} (h : Stalled buf) : buf.length ≤ 250 := by
  rcases h with hshort | ⟨-, -, hmax, hpartial⟩ <;> omega

/-- Where no frame straddles the end of `before` and LEN_MAX bytes stand behind it, the pass arrives at that end: the
frames it has found by then lie in `before`, and it goes on as a pass over the bytes behind. -/
theorem decodeScan_append_of_noFrameAcross {before rest : List Byte}
    (hacross : NoFrameAcross before.length (before ++ rest)) (hrest : 250 ≤ rest.length) :
    ∃ earlier : List (List Byte), (∀ f ∈ earlier, f <:+: before) ∧
      decodeScan (before ++ rest) = (before.length + (decodeScan rest).1, earlier ++ (decodeScan rest).2) := by
  induction before using decodeScan_induction with
  | turn before ih =>
    rcases Nat.eq_zero_or_pos before.length with hnil | hpos
    · rw [List.eq_nil_of_length_eq_zero hnil]
      exact ⟨[], by simp, by simp⟩
    cases decodeTurn (before ++ rest) with
    | stops stalled eq =>
      have hle := length_le_of_stalled stalled
      rw [List.length_append] at hle
      omega
    | skips pos eq =>
      obtain ⟨b, behind, rfl⟩ := List.exists_cons_of_length_pos hpos
      have hbehind : NoFrameAcross behind.length (behind ++ rest) :=
        NoFrameAcross.of_append (front := [b]) (by rwa [List.length_singleton, Nat.add_comm])
      obtain ⟨earlier, hearlier, hscan⟩ := ih 1 (le_refl _) hpos hbehind
      refine ⟨earlier, fun f hf => (hearlier f hf).trans (List.suffix_cons b behind).isInfix, ?_⟩
      rw [eq, List.cons_append, List.drop_succ_cons, List.drop_zero]
      rw [List.drop_succ_cons, List.drop_zero] at hscan
      rw [hscan, List.length_cons, Nat.add_comm behind.length 1, Nat.add_assoc]
    | takes v tail valid split eq =>
      have hle : v.length ≤ before.length := (split ▸ hacross).length_le_of_validFrame hpos valid
      obtain ⟨behind, rfl⟩ : v <+: before :=
        List.prefix_of_prefix_length_le ⟨tail, split.symm⟩ (List.prefix_append _ _) hle
      have hv := five_le_length_of_validFrame valid
      rw [List.append_assoc, List.append_cancel_left_eq] at split
      subst split
      rw [List.append_assoc, List.length_append] at hacross
      have hbehind := ih v.length (by omega) hle
      rw [List.drop_left] at hbehind
      obtain ⟨earlier, hearlier, hscan⟩ := hbehind hacross.of_append
      refine ⟨v :: earlier, ?_, ?_⟩
      · rintro f (_ | ⟨_, hf⟩)
        · exact (List.prefix_append v behind).isInfix
        · exact (hearlier f hf).trans (List.suffix_append v behind).isInfix
      · rw [eq, hscan, List.length_append, Nat.add_assoc, List.cons_append]

/-! ### RESET -/

/-- RESET is performed in every state, and its reserved bits and operand bytes are not read (R123). -/
theorem exec_reset (s : State) (rsv : BitVec 12) (discarded : List Byte) :
    exec (.reset rsv discarded) s = .next (resetEngine s) := rfl

end Sys2Proof.Machine
end

section
/-! The obligations of 70_reset_and_hazards.md. -/

namespace Sys2Proof.Machine

/-- Settles O49: no frame straddles the offset, so the pass arrives there, and takes the frame. -/
theorem stallIsBounded : Obligations.StallIsBounded := by
  intro before v after hv hlen hacross
  rw [List.append_assoc] at hlen hacross ⊢
  rw [List.length_append] at hlen
  obtain ⟨earlier, hearlier, hscan⟩ :=
    decodeScan_append_of_noFrameAcross hacross (Nat.le_of_add_le_add_left hlen)
  rw [decodeScan_append_of_validFrame hv, ← Nat.add_assoc] at hscan
  exact ⟨earlier, hearlier, hscan⟩

/-- Settles O59: the arm of RESET asks nothing of the state, and the step performs it for every word with OP 0xF. -/
theorem resetClears : Obligations.ResetClears :=
  ⟨exec_reset, fun _ t _ hp hl hop =>
    step_of_op_reset hp (hl.trans (cwCount_eq _).symm) ((cwOp_eq_reset_iff t.cw).2 hop)⟩

/-- Settles O14: the fields of the state at power-on are those RESET writes, and OUT is empty. -/
theorem powerOnState : Obligations.PowerOnState :=
  ⟨rfl, fun _ => rfl, rfl, rfl, exec_reset State.reset⟩

end Sys2Proof.Machine
end

section
/-! SUPPORT. For the statement of the canonical form of RXBUF (log 7): every operation that writes RXBUF keeps it. -/

namespace Sys2Proof.Machine

/-- Where the wire row answers a next state, its push answered one, and PROCESS ran from there (log 2). -/
theorem exec_wireInventoryResponse_next {s t : State} {address status : Byte} {body : List Byte}
    (h : exec (.wireInventoryResponse address status body) s = .next t) :
    ∃ u, execRxPush (responseFrame address status body) s = .next u ∧ execProcess u = .next t := by
  cases hpush : execRxPush (responseFrame address status body) s with
  | next u => exact ⟨u, rfl, (exec_wireInventoryResponse hpush).symm.trans h⟩
  | fault e => simp [exec, execWireInventoryResponse, hpush] at h
  | refused r => simp [exec, execWireInventoryResponse, hpush] at h

theorem execRxPush_keeps_wf {s t : State} {data : List Byte} (hs : s.rxbuf.wf) (h : execRxPush data s = .next t) :
    t.rxbuf.wf := by
  rcases execRxPush_next h with rfl | ⟨-, -, rfl⟩ | rfl
  · exact hs
  · exact hs
  · exact Memory.setMany_wf _ _ hs

/-- Compaction stores into a canonical memory and then drops its upper addresses. -/
theorem decodePass_keeps_wf {events : List Byte → List Event} {s t : State} (hs : s.rxbuf.wf)
    (h : unlessFaulted s (decodePass events s) = .next t) : t.rxbuf.wf := by
  rcases unlessFaulted_next h with ⟨-, rfl⟩ | ⟨-, hk⟩
  · exact hs
  · obtain ⟨buf, -, hc⟩ := decodePass_next hk
    obtain ⟨kept, -, rfl⟩ := compact_ok hc
    exact Memory.keepBelow_wf _ (Memory.setMany_wf _ _ hs)

theorem exec_keeps_wf {s t : State} {i : Instr} (hs : s.rxbuf.wf) (h : exec i s = .next t) : t.rxbuf.wf := by
  cases execShape i with
  | emits es legal eq =>
    obtain ⟨es', rfl⟩ := unlessFaulted_emit_next ((eq s).symm.trans h)
    exact hs
  | pushes data eq => subst eq; exact execRxPush_keeps_wf hs h
  | decodes events legal eq => exact decodePass_keeps_wf hs ((eq s).symm.trans h)
  | resets rsv discarded eq =>
    subst eq
    cases (exec_reset s rsv discarded).symm.trans h
    exact List.Pairwise.nil
  | receives address status body eq =>
    subst eq
    obtain ⟨u, hpush, hprocess⟩ := exec_wireInventoryResponse_next h
    exact decodePass_keeps_wf (execRxPush_keeps_wf hs hpush) hprocess

end Sys2Proof.Machine
end

section
/-! The obligation of the canonical form of RXBUF (log 7). -/

namespace Sys2Proof.Machine

/-- Settles O16: waiting, taking a transaction off the port and fault entry leave RXBUF alone, and every instruction keeps
the form. -/
theorem stepKeepsCanonicalMemory : Obligations.StepKeepsCanonicalMemory := by
  intro s t hs h
  rcases step_cases s with ⟨hstep, -⟩ | ⟨hstep, -⟩ | ⟨op, rest, -, -, ⟨i, -, -, hstep⟩ | ⟨c, -, hstep⟩⟩
  · cases hstep.symm.trans h
    exact hs
  · cases hstep.symm.trans h
  · exact exec_keeps_wf (s := s.setPort rest) hs (hstep.symm.trans h)
  · cases hstep.symm.trans h
    rw [raiseFault_rxbuf]
    exact hs

end Sys2Proof.Machine
end
